-- ==== Sys2Proof/Word.lean ====
section
/-! DEFINITION. The machine word: the only data width of the dcpu-js core (20_memory.md R32). -/

namespace Sys2Proof

/-- A word: an unsigned 16-bit integer (00_scope.md R7, R9). Word addresses are words too. -/
abbrev Word := BitVec 16

end Sys2Proof
end

