-- ==== Sys2Proof/Machine/Memory.lean ====
section
/-! DEFINITION. Memory: the flat array of 0x10000 words (20_memory.md R30), held as the list of the words that differ
from what memory holds before anything is stored. The unit is the word, because the machine has no bytes
(R32, R33; log entry 1). -/

namespace Sys2Proof.Machine

/-- Memory as (word address, word) pairs in canonical form: see `Memory.wf`. -/
abbrev Memory := List (Nat × Word)

/-- What an address that is not listed reads as: zero, so that the default `MEM_INIT` of 10_state.md R25 is the empty
list (DESIGN CHOICE of the spec, decision D18, unsafe: log entry 2). -/
def Memory.initial (_addr : Nat) : Word := 0x0000

/-- `MemRead(addr, 1)` (00_scope.md R8). No side effect (20_memory.md R35). -/
def Memory.read : Memory → Nat → Word
  | [], addr => Memory.initial addr
  | (k, v) :: m, addr => if k = addr then v else Memory.read m addr

/-- The list without an entry of `addr`. -/
def Memory.erase : Memory → Nat → Memory
  | [], _ => []
  | (k, v) :: m, addr => if k = addr then Memory.erase m addr else (k, v) :: Memory.erase m addr

/-- The list with `addr` holding `v`, in rising order of addresses. -/
def Memory.insert : Memory → Nat → Word → Memory
  | [], addr, v => [(addr, v)]
  | (k, u) :: m, addr, v =>
    if addr < k then (addr, v) :: (k, u) :: m
    else if k = addr then (addr, v) :: m
    else (k, u) :: Memory.insert m addr v

/-- Store one word, keeping the canonical form: storing what an unlisted address reads as removes the entry. -/
def Memory.write (m : Memory) (addr : Nat) (v : Word) : Memory :=
  if v = Memory.initial addr then m.erase addr else m.insert addr v

/-- The entries from a list on have addresses from `lo` up, strictly rising, all below 0x10000, and none holds what an
unlisted address reads as. -/
def Memory.wfFrom : Nat → Memory → Bool
  | _, [] => true
  | lo, (k, v) :: m => decide (lo ≤ k) && decide (k < 0x10000) && decide (v ≠ Memory.initial k) && Memory.wfFrom (k + 1) m

/-- The canonical form: equal memories are equal lists. -/
def Memory.wf (m : Memory) : Bool := Memory.wfFrom 0 m

/-- Store words one after another from address `addr`, without any report: what `LOAD` does
(70_reset_and_hazards.md R212). -/
def Memory.load : Memory → Nat → List Word → Memory
  | m, _, [] => m
  | m, addr, w :: ws => Memory.load (m.write addr w) (addr + 1) ws

/-- The words of a function at `n` addresses from `addr` on, listed where an unlisted address reads otherwise. -/
def Memory.tabulateFrom (f : Nat → Word) : Nat → Nat → Memory
  | _, 0 => []
  | addr, n + 1 =>
    if f addr = Memory.initial addr then Memory.tabulateFrom f (addr + 1) n
    else (addr, f addr) :: Memory.tabulateFrom f (addr + 1) n

/-- The memory that holds a function's word at every address: `MEM_INIT` as R5 types it, a function from address to
word, in the form the parameter is held in. -/
def Memory.tabulate (f : Nat → Word) : Memory := Memory.tabulateFrom f 0 0x10000

end Sys2Proof.Machine
end

