-- ==== Sys2Proof/Syntax.lean ====
section
/-! DEFINITION. The instructions of the dcpu-js core, one constructor of `Instr` per row of
spec/opcode_table.json, and the operand codes of 30_encoding.md R55.

An instruction is what its INSTRUCTION WORD says (30_encoding.md R50, R76). Its trailing words stand in memory after
it and are read when an operand is resolved (40_operand_resolver.md R100), so an operand here names its class and not
the trailing word's value (log entry 26). -/

namespace Sys2Proof

/-- The eight general registers (10_state.md R10). Their numbers are `REG_MAP`, a parameter. -/
inductive Reg where
  | A | B | C | X | Y | Z | I | J
  deriving DecidableEq, Repr

/-- The 64 operand codes by class (30_encoding.md R55), named as the operand stands in assembly. -/
inductive Operand where
  /-- Codes 0x00 to 0x07, `Reg(r)`: the register. -/
  | reg (r : Reg)
  /-- Codes 0x08 to 0x0F, `RegInd(r)`: the word the register addresses. -/
  | regInd (r : Reg)
  /-- Codes 0x10 to 0x17, `RegIdx(r, n)`: the word at register plus the trailing word `n`. -/
  | regIdx (r : Reg)
  /-- Code 0x18, `POP`. -/
  | pop
  /-- Code 0x19, `PEEK`. -/
  | peek
  /-- Code 0x1A, `PUSH`. -/
  | push
  /-- Code 0x1B, SP as value. -/
  | spVal
  /-- Code 0x1C, PC as value. -/
  | pcVal
  /-- Code 0x1D, O as value. -/
  | oVal
  /-- Code 0x1E, `MemAbs(n)`: the word at the address in the trailing word. -/
  | memAbs
  /-- Code 0x1F, `Imm(n)`: the trailing word itself. -/
  | imm
  /-- Codes 0x20 to 0x3F, `SmallLit(k)`. -/
  | lit (k : BitVec 5)
  deriving DecidableEq, Repr

/-- `T(c)` of 30_encoding.md R53 and R54: whether the operand has a trailing word. -/
def Operand.hasTrailing : Operand → Bool
  | .regIdx _ => true
  | .memAbs => true
  | .imm => true
  | .reg _ => false
  | .regInd _ => false
  | .pop => false
  | .peek => false
  | .push => false
  | .spVal => false
  | .pcVal => false
  | .oVal => false
  | .lit _ => false

/-- `T(c)` as a number of words. -/
def Operand.trailing (x : Operand) : Nat := x.hasTrailing.toNat

/-- The instructions: fifteen basic ones with operands A and B, the subroutine call, and the illegal non-basic
words, which keep the two fields of their word. -/
inductive Instr where
  | set (a b : Operand)
  | add (a b : Operand)
  | sub (a b : Operand)
  | mul (a b : Operand)
  | div (a b : Operand)
  | mod (a b : Operand)
  | shl (a b : Operand)
  | shr (a b : Operand)
  | and (a b : Operand)
  | bor (a b : Operand)
  | xor (a b : Operand)
  | ife (a b : Operand)
  | ifn (a b : Operand)
  | ifg (a b : Operand)
  | ifb (a b : Operand)
  | jsr (a : Operand)
  /-- A word with `fo = 0` and sub-opcode `fa` other than 0x01 (44_nonbasic.md R182); `fb` is ignored. -/
  | illegal (fa fb : BitVec 6)
  deriving DecidableEq, Repr

/-- The fifteen basic instructions by name (30_encoding.md R57): what `OPCODE_MAP` numbers. -/
inductive BasicOp where
  | set | add | sub | mul | div | mod | shl | shr | and | bor | xor | ife | ifn | ifg | ifb
  deriving DecidableEq, Repr

/-- The basic instructions in the order in which R57 lists them. -/
def BasicOp.all : List BasicOp :=
  [.set, .add, .sub, .mul, .div, .mod, .shl, .shr, .and, .bor, .xor, .ife, .ifn, .ifg, .ifb]

/-- The basic instruction with its operands. -/
def BasicOp.instr : BasicOp → Operand → Operand → Instr
  | .set => .set
  | .add => .add
  | .sub => .sub
  | .mul => .mul
  | .div => .div
  | .mod => .mod
  | .shl => .shl
  | .shr => .shr
  | .and => .and
  | .bor => .bor
  | .xor => .xor
  | .ife => .ife
  | .ifn => .ifn
  | .ifg => .ifg
  | .ifb => .ifb

/-- The registers in the order in which 10_state.md R10 lists them. -/
def Reg.all : List Reg := [.A, .B, .C, .X, .Y, .Z, .I, .J]

/-- The operands in the order they are resolved (40_operand_resolver.md R115); an illegal word resolves none (R182). -/
def Instr.operands : Instr → List Operand
  | .set a b => [a, b]
  | .add a b => [a, b]
  | .sub a b => [a, b]
  | .mul a b => [a, b]
  | .div a b => [a, b]
  | .mod a b => [a, b]
  | .shl a b => [a, b]
  | .shr a b => [a, b]
  | .and a b => [a, b]
  | .bor a b => [a, b]
  | .xor a b => [a, b]
  | .ife a b => [a, b]
  | .ifn a b => [a, b]
  | .ifg a b => [a, b]
  | .ifb a b => [a, b]
  | .jsr a => [a]
  | .illegal _ _ => []

/-- How many trailing words follow the instruction word (30_encoding.md R53, R54); none is consumed for an illegal
word. -/
def Instr.trailing (i : Instr) : Nat := (i.operands.map Operand.trailing).sum

/-- The instruction's length in words (30_encoding.md R54). The spec gives an illegal word no length; here it counts
the one word the fetch consumes. -/
def Instr.length (i : Instr) : Nat := 1 + i.trailing

end Sys2Proof
end

