-- ==== Sys2Proof/Config.lean ====
section
/-! DEFINITION. The parameters a model of this hardware takes (00_scope.md R5), with a type for each. The decoder, the
encoder, the reset and the shared operations of Machine/ take them as an argument and give EVERY setting its meaning;
the values the machine runs with are `Machine.config` of Machine/Settings.lean. `STOP` is an argument of `runDriver`. -/

namespace Sys2Proof

/-- `SHR_O_RULE` (R5, decision D8): what SHR writes to O. -/
inductive ShrORule where
  /-- O receives the high word of the widened result, as for every other instruction: 0. -/
  | uniform
  /-- O receives the bits shifted out at the bottom. -/
  | shiftedOut
  deriving DecidableEq, Repr

/-- `OPERAND_READ_TIMING` (R5, decision D12): when the value at operand A's location is read. -/
inductive ReadTiming where
  /-- After both operands are resolved. -/
  | afterBoth
  /-- Right after operand A is resolved, before operand B is. -/
  | atResolution
  deriving DecidableEq, Repr

/-- `OPCODE_MAP` (R5; 30_encoding.md R57): the map and its inverse, `OPCODE_MAP^-1` of 41_step_engine.md R130. -/
structure OpcodeMap where
  number : BasicOp → Nat
  op : Nat → BasicOp

/-- The map is a bijection from the fifteen basic instructions to 0x1..0xF. -/
def OpcodeMap.wf (m : OpcodeMap) : Bool :=
  BasicOp.all.all (fun x => decide (1 ≤ m.number x) && decide (m.number x ≤ 15) && m.op (m.number x) == x) &&
    (List.range' 1 15).all fun n => m.number (m.op n) == n

/-- `REG_MAP` (R5; 10_state.md R10): the map and its inverse. -/
structure RegMap where
  number : Reg → Nat
  reg : Nat → Reg

/-- The map is a bijection from the eight registers to 0..7. -/
def RegMap.wf (m : RegMap) : Bool :=
  Reg.all.all (fun r => decide (m.number r < 8) && m.reg (m.number r) == r) &&
    (List.range 8).all fun n => m.number (m.reg n) == n

/-- The parameters of R5. -/
structure Config where
  /-- `OPCODE_MAP` (decision D1). -/
  opcodeMap : OpcodeMap
  /-- `REG_MAP` (decision D2). -/
  regMap : RegMap
  /-- `SHIFT_COUNT_MASK` (decision D7): `none`, or the mask SHL and SHR apply to their count. -/
  shiftCountMask : Option Word
  /-- `SHR_O_RULE` (decision D8). -/
  shrORule : ShrORule
  /-- `SET_WRITES_O` (decision D9): whether an unsuppressed SET writes 0 to O. -/
  setWritesO : Bool
  /-- `O_WRITE_NEEDS_WRITABLE_DEST` (decision D10): whether O is left alone when operand A is a small literal. -/
  oWriteNeedsWritableDest : Bool
  /-- `OPERAND_READ_TIMING` (decision D12). -/
  operandReadTiming : ReadTiming
  /-- `FAULT_WHEN_SUPPRESSED` (decision D16): whether an illegal word faults when the skip-flag is set. -/
  faultWhenSuppressed : Bool
  /-- `RESET_REG[r]` (decision D18). -/
  resetReg : Reg → Word
  /-- `RESET_PC` (decision D18). -/
  resetPc : Word
  /-- `RESET_SP` (decision D18). -/
  resetSp : Word
  /-- `RESET_O` (decision D18). -/
  resetO : Word
  /-- `RESET_SKIP` (decision D18). -/
  resetSkip : Bool
  /-- `MEM_INIT` (decision D18), as a memory in canonical form: `Memory.tabulate f` is the one that holds `f`, for
  every function `f` from addresses to words. -/
  memInit : Machine.Memory
  /-- `OBS_LO` (decision D21). -/
  obsLo : Word
  /-- `OBS_HI` (decision D21). -/
  obsHi : Word

/-- The settings R5 admits: bijections, and a memory in canonical form. -/
def Config.wf (c : Config) : Bool := c.opcodeMap.wf && c.regMap.wf && c.memInit.wf

end Sys2Proof
end

