-- ==== Sys2Proof/Machine/Settings.lean ====
section
/-! DEFINITION. The parameter values the machine runs with: the defaults of 00_scope.md R5. -/

namespace Sys2Proof

/-- The default `REG_MAP` (10_state.md R10; PRESUMED, decision D2, unsafe: log entry 6): A=0, B=1, C=2, X=3, Y=4, Z=5,
I=6, J=7. -/
def Reg.number : Reg → Nat
  | .A => 0
  | .B => 1
  | .C => 2
  | .X => 3
  | .Y => 4
  | .Z => 5
  | .I => 6
  | .J => 7

/-- The register with number `n`, `n` in 0..7. -/
def Reg.ofNumber (n : Nat) : Reg :=
  match n with
  | 0 => .A
  | 1 => .B
  | 2 => .C
  | 3 => .X
  | 4 => .Y
  | 5 => .Z
  | 6 => .I
  | _ => .J

/-- The default `OPCODE_MAP` (30_encoding.md R57; PRESUMED, decision D1, unsafe: log entry 5). -/
def BasicOp.number : BasicOp → Nat
  | .set => 0x1
  | .add => 0x2
  | .sub => 0x3
  | .mul => 0x4
  | .div => 0x5
  | .mod => 0x6
  | .shl => 0x7
  | .shr => 0x8
  | .and => 0x9
  | .bor => 0xA
  | .xor => 0xB
  | .ife => 0xC
  | .ifn => 0xD
  | .ifg => 0xE
  | .ifb => 0xF

/-- The basic instruction with number `n`, `n` in 0x1..0xF. -/
def BasicOp.ofNumber (n : Nat) : BasicOp :=
  match n with
  | 0x1 => .set
  | 0x2 => .add
  | 0x3 => .sub
  | 0x4 => .mul
  | 0x5 => .div
  | 0x6 => .mod
  | 0x7 => .shl
  | 0x8 => .shr
  | 0x9 => .and
  | 0xA => .bor
  | 0xB => .xor
  | 0xC => .ife
  | 0xD => .ifn
  | 0xE => .ifg
  | _ => .ifb

end Sys2Proof

namespace Sys2Proof.Machine

/-- The defaults of R5 (PRESUMED for the two maps: log entries 5, 6; DESIGN CHOICE of the spec for the rest, unsafe: log
entries 2 to 4, 8 to 11, 13, 17, 21; the sum of them in log entry 7). The observer's range is the empty one from 0xFFFF
to 0x0000. -/
def config : Config where
  opcodeMap := { number := BasicOp.number, op := BasicOp.ofNumber }
  regMap := { number := Reg.number, reg := Reg.ofNumber }
  shiftCountMask := none
  shrORule := .uniform
  setWritesO := true
  oWriteNeedsWritableDest := false
  operandReadTiming := .afterBoth
  faultWhenSuppressed := true
  resetReg := fun _ => 0x0000
  resetPc := 0x0000
  resetSp := 0x0000
  resetO := 0x0000
  resetSkip := false
  memInit := []
  obsLo := 0xFFFF
  obsHi := 0x0000

end Sys2Proof.Machine
end

