-- ==== Sys2Proof/WellFormed.lean ====
section
/-! DEFINITION. Which terms of `Instr` are instructions of the machine. Register numbers, operand codes and small
literals are in range by their types; what is left is one check. -/

namespace Sys2Proof

/-- The check of one instruction: an illegal word's sub-opcode is not 0x01, which is JSR's
(30_encoding.md R59, R76). -/
def Instr.wf : Instr → Bool
  | .set _ _ => true
  | .add _ _ => true
  | .sub _ _ => true
  | .mul _ _ => true
  | .div _ _ => true
  | .mod _ _ => true
  | .shl _ _ => true
  | .shr _ _ => true
  | .and _ _ => true
  | .bor _ _ => true
  | .xor _ _ => true
  | .ife _ _ => true
  | .ifn _ _ => true
  | .ifg _ _ => true
  | .ifb _ _ => true
  | .jsr _ => true
  | .illegal fa _ => fa != 0x01

end Sys2Proof
end

