-- ==== Sys2Proof/Decode.lean ====
section
/-! DEFINITION. From words to instructions and back: the split of an instruction word (30_encoding.md R50, R76), the
operand code table (R55), the opcode map (R57, R58), the decoder over a sequence of words, and the encoder written
from the same tables. `decodeWordAs` and `encodeWordAs` take `OPCODE_MAP` and `REG_MAP` at any setting; `decodeWord`
and `encodeWord` are the machine's. -/

namespace Sys2Proof

/-! ## Operand codes (30_encoding.md R55) -/

/-- The operand a 6-bit code names, under `REG_MAP`; every code names one. -/
def decodeOperandAs (m : RegMap) (c : Nat) : Operand :=
  if c < 0x08 then .reg (m.reg c)
  else if c < 0x10 then .regInd (m.reg (c - 0x08))
  else if c < 0x18 then .regIdx (m.reg (c - 0x10))
  else if c = 0x18 then .pop
  else if c = 0x19 then .peek
  else if c = 0x1A then .push
  else if c = 0x1B then .spVal
  else if c = 0x1C then .pcVal
  else if c = 0x1D then .oVal
  else if c = 0x1E then .memAbs
  else if c = 0x1F then .imm
  else .lit (BitVec.ofNat 5 (c - 0x20))

/-- The operand a 6-bit code names in this machine. -/
def decodeOperand (c : Nat) : Operand := decodeOperandAs Machine.config.regMap c

/-- The operand's 6-bit code, under `REG_MAP`. -/
def encodeOperandAs (m : RegMap) : Operand → Nat
  | .reg r => 0x00 + m.number r
  | .regInd r => 0x08 + m.number r
  | .regIdx r => 0x10 + m.number r
  | .pop => 0x18
  | .peek => 0x19
  | .push => 0x1A
  | .spVal => 0x1B
  | .pcVal => 0x1C
  | .oVal => 0x1D
  | .memAbs => 0x1E
  | .imm => 0x1F
  | .lit k => 0x20 + k.toNat

/-- The operand's 6-bit code in this machine. -/
def encodeOperand (x : Operand) : Nat := encodeOperandAs Machine.config.regMap x

/-! ## The instruction word (30_encoding.md R50) -/

/-- `w[3:0]`. -/
def fieldO (w : Word) : Nat := w.toNat % 16

/-- `w[9:4]`. -/
def fieldA (w : Word) : Nat := w.toNat / 16 % 64

/-- `w[15:10]`. -/
def fieldB (w : Word) : Nat := w.toNat / 1024

/-- `w = fo + 16 * fa + 1024 * fb`. -/
def packWord (fo fa fb : Nat) : Word := BitVec.ofNat 16 (fo + 16 * fa + 1024 * fb)

/-- `DecodeWord` of 30_encoding.md R76 under any `OPCODE_MAP` (R57) and `REG_MAP`: total, every word is an instruction
or an illegal non-basic word. -/
def decodeWordAs (c : Config) (w : Word) : Instr :=
  if fieldO w = 0 then
    if fieldA w = 0x01 then .jsr (decodeOperandAs c.regMap (fieldB w))
    else .illegal (BitVec.ofNat 6 (fieldA w)) (BitVec.ofNat 6 (fieldB w))
  else
    (c.opcodeMap.op (fieldO w)).instr (decodeOperandAs c.regMap (fieldA w)) (decodeOperandAs c.regMap (fieldB w))

/-- The instruction a word is in this machine (PRESUMED maps, decisions D1 and D2, unsafe: log entries 5, 6). -/
def decodeWord (w : Word) : Instr := decodeWordAs Machine.config w

/-- Why a sequence of words is not an instruction with its trailing words. -/
inductive DecodeError where
  /-- There is no instruction word. -/
  | noWord
  /-- The sequence ends before the trailing words the instruction word asks for. -/
  | missingTrailingWord
  deriving DecidableEq, Repr

/-- The first instruction of a sequence of words, its trailing words in the order A then B (30_encoding.md R53), and
the words after it. The length is known from the instruction word alone (R54). -/
def decode : List Word → Except DecodeError (Instr × List Word × List Word)
  | [] => .error .noWord
  | w :: ws =>
    let n := (decodeWord w).trailing
    if ws.length < n then .error .missingTrailingWord
    else .ok (decodeWord w, ws.take n, ws.drop n)

/-- The decoder read as the host numbers a table row's bits: the first word is bits 15..0 of `w`, a later word counts
on from bit 16, and every bit from `nbits` up is 0. The opcode table gives bits to the instruction word only. -/
def decodeTableWord (nbits w : Nat) : Option Instr :=
  let v := w % 2 ^ nbits
  let word (k : Nat) : Word := BitVec.ofNat 16 (v / 2 ^ (16 * k))
  match decode [word 0, word 1, word 2] with
  | .ok (i, _, _) => some i
  | .error _ => none

/-! ## The encoder (30_encoding.md R70, R71) -/

/-- The word of a basic instruction: `o + 16 * ca + 1024 * cb` (R70). -/
def packBasic (c : Config) (op : BasicOp) (a b : Operand) : Word :=
  packWord (c.opcodeMap.number op) (encodeOperandAs c.regMap a) (encodeOperandAs c.regMap b)

/-- The instruction word, under any `OPCODE_MAP` and `REG_MAP`. -/
def encodeWordAs (c : Config) : Instr → Word
  | .set a b => packBasic c .set a b
  | .add a b => packBasic c .add a b
  | .sub a b => packBasic c .sub a b
  | .mul a b => packBasic c .mul a b
  | .div a b => packBasic c .div a b
  | .mod a b => packBasic c .mod a b
  | .shl a b => packBasic c .shl a b
  | .shr a b => packBasic c .shr a b
  | .and a b => packBasic c .and a b
  | .bor a b => packBasic c .bor a b
  | .xor a b => packBasic c .xor a b
  | .ife a b => packBasic c .ife a b
  | .ifn a b => packBasic c .ifn a b
  | .ifg a b => packBasic c .ifg a b
  | .ifb a b => packBasic c .ifb a b
  | .jsr a => packWord 0x0 0x01 (encodeOperandAs c.regMap a)
  | .illegal fa fb => packWord 0x0 fa.toNat fb.toNat

/-- The instruction word in this machine. -/
def encodeWord (i : Instr) : Word := encodeWordAs Machine.config i

/-- The words of an instruction with its trailing words: the instruction word, then A's trailing word, then B's
(30_encoding.md R53). -/
def encode (i : Instr) (trailing : List Word) : List Word := encodeWord i :: trailing

end Sys2Proof
end

