-- ==== Sys2Proof/Machine/Flags.lean ====
section
/-! DEFINITION. What the instructions compute: the widened result of SET and the ALU instructions
(42_set_and_alu.md), the word stored and the word O receives, and the conditions of the conditional instructions
(43_conditional.md). Operands are unsigned 16-bit numbers; results are mathematical integers (R150, decision D5). -/

namespace Sys2Proof.Machine

/-- `result mod 2^16`, the word stored (R150). -/
def lowWord (result : Int) : Word := BitVec.ofInt 16 result

/-- `floor(result / 2^16) mod 2^16`, the word O receives (R150). -/
def highWord (result : Int) : Word := BitVec.ofInt 16 (result / 65536)

/-- R151: `b`. -/
def setResult (_a b : Word) : Int := b.toNat

/-- R152: `a + b`. -/
def addResult (a b : Word) : Int := a.toNat + b.toNat

/-- R153: `a - b`, negative on a borrow (decision D3; log entry 19). -/
def subResult (a b : Word) : Int := (a.toNat : Int) - b.toNat

/-- R154: `a * b`. -/
def mulResult (a b : Word) : Int := a.toNat * b.toNat

/-- R155: `floor(a / b)`, and 0 when `b = 0` (decisions D3, D6; log entry 19). -/
def divResult (a b : Word) : Int := if b.toNat = 0 then 0 else ((a.toNat / b.toNat : Nat) : Int)

/-- R156: the remainder, and 0 when `b = 0` (decision D3; log entry 19). -/
def modResult (a b : Word) : Int := if b.toNat = 0 then 0 else ((a.toNat % b.toNat : Nat) : Int)

/-- The shift count: all of `b`, or `b & SHIFT_COUNT_MASK` (R157, R158; decision D7, log entry 8). -/
def shiftCount (c : Config) (b : Word) : Nat :=
  match c.shiftCountMask with
  | none => b.toNat
  | some mask => (b &&& mask).toNat

/-- R157: `a * 2^n`. -/
def shlResult (c : Config) (a b : Word) : Int := ((a.toNat <<< shiftCount c b : Nat) : Int)

/-- R158: `floor(a / 2^n)`, a logical shift. -/
def shrResult (c : Config) (a b : Word) : Int := ((a.toNat >>> shiftCount c b : Nat) : Int)

/-- R159: `a & b`. -/
def andResult (a b : Word) : Int := (a &&& b).toNat

/-- R160: `a | b`, inclusive (log entry 19). -/
def borResult (a b : Word) : Int := (a ||| b).toNat

/-- R161: `a ^ b`. -/
def xorResult (a b : Word) : Int := (a ^^^ b).toNat

/-- What SHR writes to O: `highWord` of its result, or the bits shifted out at the bottom,
`floor(a * 2^16 / 2^n) mod 2^16` (R158; decision D8, log entry 9). -/
def shrOverflow (c : Config) (a b : Word) : Word :=
  match c.shrORule with
  | .uniform => highWord (shrResult c a b)
  | .shiftedOut => BitVec.ofNat 16 ((a.toNat * 65536) >>> shiftCount c b)

/-- R171: `a = b`. -/
def ifeHolds (a b : Word) : Bool := a == b

/-- R172: `a != b` (decision D4; log entry 20). -/
def ifnHolds (a b : Word) : Bool := a != b

/-- R173: `a > b`, unsigned (decision D4; log entry 20). -/
def ifgHolds (a b : Word) : Bool := decide (b.toNat < a.toNat)

/-- R174: `(a & b) != 0` (decision D4; log entry 20). -/
def ifbHolds (a b : Word) : Bool := (a &&& b) != 0

end Sys2Proof.Machine
end

