-- ==== Sys2Proof/Machine/State.lean ====
section
/-! DEFINITION. The state of the Execution Engine (10_state.md), the reasons a step can stop, and the state after
reset. -/

namespace Sys2Proof.Machine

/-- The eight general registers (10_state.md R10). -/
structure Regs where
  A : Word
  B : Word
  C : Word
  X : Word
  Y : Word
  Z : Word
  I : Word
  J : Word
  deriving DecidableEq, Repr

/-- One report to the write observer: `OBSERVE(addr, value)` (20_memory.md R40). -/
structure Report where
  addr : Word
  value : Word
  deriving DecidableEq, Repr

/-- Everything the spec gives the engine (10_state.md), plus the write observer's range and its reports. -/
structure State where
  /-- The general registers (R10). -/
  regs : Regs
  /-- The program counter, a word address (R12). -/
  pc : Word
  /-- The stack pointer, a word address (R14). -/
  sp : Word
  /-- The overflow register (R15). -/
  o : Word
  /-- The skip-flag (R17). -/
  skip : Bool
  /-- The fault latch (R20). -/
  faulted : Bool
  /-- The flat memory of 0x10000 words (R19). -/
  mem : Memory
  /-- `OBS_LO`, the MODEL's own: a parameter of R5 and 20_memory.md R40, fixed while the machine runs. -/
  obsLo : Word
  /-- `OBS_HI`, the MODEL's own: see `obsLo`. -/
  obsHi : Word
  /-- The reports made to the write observer so far, oldest first. The MODEL's own: an output (R40). -/
  reports : List Report
  deriving DecidableEq, Repr

/-- The reasons a step stops the machine. -/
inductive Fault where
  /-- `STEP` was asked for while the fault latch is set: nothing changes and the answer is `fault` again, until
  `RESET` (41_step_engine.md R142; 93_implementation_defined.md U18, `stuck`). Raised by `step` only, never by an
  instruction: the illegal word itself takes the fault's entry, a next state with the latch set. Safe: the hardware
  does nothing here either. -/
  | faultLatched
  deriving DecidableEq, Repr

/-- The reasons an instruction is refused. -/
inductive Refusal where
  /-- The instruction has no meaning in this model. Raised by an arm of `exec` only; in this model by none.
  Safe: the model stops where the hardware goes on. -/
  | notModelled (mnemonic : String)
  deriving DecidableEq, Repr

/-- The state right after `RESET` under the parameters `RESET_REG`, `RESET_PC`, `RESET_SP`, `RESET_O`, `RESET_SKIP`,
`MEM_INIT`, `OBS_LO` and `OBS_HI` (70_reset_and_hazards.md R210; 10_state.md R25). -/
def State.resetWith (c : Config) : State where
  regs :=
    { A := c.resetReg .A, B := c.resetReg .B, C := c.resetReg .C, X := c.resetReg .X,
      Y := c.resetReg .Y, Z := c.resetReg .Z, I := c.resetReg .I, J := c.resetReg .J }
  pc := c.resetPc
  sp := c.resetSp
  o := c.resetO
  skip := c.resetSkip
  faulted := false
  mem := c.memInit
  obsLo := c.obsLo
  obsHi := c.obsHi
  reports := []

/-- The state right after `RESET`. The values are the spec's decision D18 (log entries 2, 3, 4, 21); a program comes to
run through `LOAD` (log entry 22). -/
def State.reset : State := State.resetWith config

end Sys2Proof.Machine
end

