-- ==== Sys2Proof/Machine/Ops.lean ====
section
/-! DEFINITION. The named operations on registers and memory (the primitives of 00_scope.md R8), the fetch, the push,
and taking the machine's one exception. -/

namespace Sys2Proof.Machine

/-- `R[r]`. -/
def Regs.get (g : Regs) : Reg → Word
  | .A => g.A
  | .B => g.B
  | .C => g.C
  | .X => g.X
  | .Y => g.Y
  | .Z => g.Z
  | .I => g.I
  | .J => g.J

/-- `R[r] <- v`. -/
def Regs.set (g : Regs) (r : Reg) (v : Word) : Regs :=
  match r with
  | .A => { g with A := v }
  | .B => { g with B := v }
  | .C => { g with C := v }
  | .X => { g with X := v }
  | .Y => { g with Y := v }
  | .Z => { g with Z := v }
  | .I => { g with I := v }
  | .J => { g with J := v }

/-- `R[r]` of the state. -/
def State.reg (s : State) (r : Reg) : Word := s.regs.get r

/-- `R[r] <- v`. -/
def State.setReg (s : State) (r : Reg) (v : Word) : State := { s with regs := s.regs.set r v }

/-- `PC <- v`. -/
def State.setPc (s : State) (v : Word) : State := { s with pc := v }

/-- `SP <- v`. -/
def State.setSp (s : State) (v : Word) : State := { s with sp := v }

/-- `O <- v`. -/
def State.setO (s : State) (v : Word) : State := { s with o := v }

/-- `SKIP <- b`. -/
def State.setSkip (s : State) (b : Bool) : State := { s with skip := b }

/-- `MemRead(addr, 1)`. -/
def State.memRead (s : State) (addr : Word) : Word := s.mem.read addr.toNat

/-- `OBS_LO <= addr <= OBS_HI`, both ends included (20_memory.md R40; decision D21). -/
def State.observed (s : State) (addr : Word) : Bool :=
  decide (s.obsLo.toNat ≤ addr.toNat) && decide (addr.toNat ≤ s.obsHi.toNat)

/-- `MemWrite(addr, 1, v)`: store, then report the store when the address lies in the observer's range
(20_memory.md R35, R40). -/
def State.memWrite (s : State) (addr v : Word) : State :=
  { s with
    mem := s.mem.write addr.toNat v
    reports := if s.observed addr then s.reports ++ [{ addr := addr, value := v }] else s.reports }

/-- `NextWordAddr()`: the address of the next word, and PC moved past it, modulo 0x10000 (00_scope.md R8;
20_memory.md R31). -/
def State.nextWordAddr (s : State) : Word × State := (s.pc, s.setPc (s.pc + 1))

/-- The instruction word at PC (41_step_engine.md R131). -/
def State.fetchWord (s : State) : Word := s.memRead s.nextWordAddr.1

/-- The state after the fetch: PC one further (41_step_engine.md R131). -/
def State.afterFetch (s : State) : State := s.nextWordAddr.2

/-- A push: SP - 1, then the word stored at the new SP (44_nonbasic.md R180). -/
def State.pushWord (s : State) (v : Word) : State :=
  (s.setSp (s.sp - 1)).memWrite (s.sp - 1) v

/-- Taking the exception `IllegalOpcode` (60_exceptions.md R193): the fault latch is set and NOTHING else changes; the
fetch's PC increment, already made, stands. No register saves anything, no mode changes, no stack is touched and
control goes to no handler; the word and its address go to the driver and not into the state (R190). There is no
return from it (R194): only `RESET` clears the latch. -/
def State.raiseIllegalOpcode (s : State) : State := { s with faulted := true }

end Sys2Proof.Machine
end

