-- ==== Sys2Proof/Machine/Operands.lean ====
section
/-! DEFINITION. The Operand Resolver in its decode direction (40_operand_resolver.md): the location each operand
names, with its effect on PC and SP, and the reading and writing of locations. -/

namespace Sys2Proof.Machine

/-- A storage location, `Loc` of 00_scope.md R8. A location is fixed when the operand is resolved
(40_operand_resolver.md R116). -/
inductive Loc where
  | reg (r : Reg)
  | sp
  | pc
  | o
  | mem (addr : Word)
  /-- Slot `k` of the read-only literal pool (10_state.md R18). -/
  | lit (k : BitVec 5)
  deriving DecidableEq, Repr

/-- `Read(loc)` of R8. -/
def State.readLoc (s : State) : Loc → Word
  | .reg r => s.reg r
  | .sp => s.sp
  | .pc => s.pc
  | .o => s.o
  | .mem addr => s.memRead addr
  | .lit k => k.setWidth 16

/-- `Writable(loc)` of R8: false exactly for a literal (40_operand_resolver.md R118). -/
def Loc.writable : Loc → Bool
  | .reg _ => true
  | .sp => true
  | .pc => true
  | .o => true
  | .mem _ => true
  | .lit _ => false

/-- `if Writable(loc): Write(loc, v)` of 42_set_and_alu.md R150: a store to a literal is dropped. -/
def State.writeLoc (s : State) (loc : Loc) (v : Word) : State :=
  match loc with
  | .reg r => s.setReg r v
  | .sp => s.setSp v
  | .pc => s.setPc v
  | .o => s.setO v
  | .mem addr => s.memWrite addr v
  | .lit _ => s

/-- `Resolve(c)` of 40_operand_resolver.md R100: the operand's location, and the state with PC and SP moved. The
trailing word is read from memory at PC. The stack codes do the same in either operand slot (R117; decision D14, log
entry 15), and code 0x1F names its trailing word in memory, which is writable (R112; decision D13, log entry 14). -/
def resolve (x : Operand) (s : State) : Loc × State :=
  match x with
  | .reg r => (.reg r, s)
  | .regInd r => (.mem (s.reg r), s)
  | .regIdx r => let (t, s') := s.nextWordAddr; (.mem (s.reg r + s.memRead t), s')
  | .pop => (.mem s.sp, s.setSp (s.sp + 1))
  | .peek => (.mem s.sp, s)
  | .push => (.mem (s.sp - 1), s.setSp (s.sp - 1))
  | .spVal => (.sp, s)
  | .pcVal => (.pc, s)
  | .oVal => (.o, s)
  | .memAbs => let (t, s') := s.nextWordAddr; (.mem (s.memRead t), s')
  | .imm => let (t, s') := s.nextWordAddr; (.mem t, s')
  | .lit k => (.lit k, s)

/-- What the two operands of a basic instruction come to: their locations, the values read there, and the state after
both are resolved. -/
structure Resolved where
  locA : Loc
  locB : Loc
  valA : Word
  valB : Word
  after : State
  deriving DecidableEq, Repr

/-- Operand A completely, then operand B (40_operand_resolver.md R115), then the values, read before any write
(41_step_engine.md R135). `OPERAND_READ_TIMING` says when A's value is read (decision D12, log entry 13). -/
def resolveBoth (c : Config) (a b : Operand) (s : State) : Resolved :=
  let ra := resolve a s
  let rb := resolve b ra.2
  { locA := ra.1
    locB := rb.1
    valA :=
      match c.operandReadTiming with
      | .afterBoth => rb.2.readLoc ra.1
      | .atResolution => ra.2.readLoc ra.1
    valB := rb.2.readLoc rb.1
    after := rb.2 }

end Sys2Proof.Machine
end

