-- ==== Sys2Proof/Machine/Basic.lean ====
section
/-! DEFINITION. What the basic instructions share: resolution and the skip-flag test (41_step_engine.md R133, R134),
the write-back of SET and the ALU instructions (42_set_and_alu.md R150), and the conditional test
(43_conditional.md R170). Each starts in the state after the fetch. -/

namespace Sys2Proof.Machine

/-- What a step of this machine answers: the next state, a fault or a refusal. -/
abbrev Answer := Host.Outcome State Fault Refusal

/-- The common path of a basic instruction: both operands are resolved whether or not the step is suppressed
(40_operand_resolver.md R114); when SKIP is set the step clears it and ends; otherwise `effect` runs
(41_step_engine.md R130). -/
def basic (c : Config) (a b : Operand) (effect : Resolved → State) (s : State) : Answer :=
  let r := resolveBoth c a b s
  if r.after.skip then .next (r.after.setSkip false) else .next (effect r)

/-- `O <- v`, unless the parameter `O_WRITE_NEEDS_WRITABLE_DEST` asks for a writable destination and there is none
(R150 point b; decision D10, log entry 11). -/
def writeO (c : Config) (loc : Loc) (v : Word) (s : State) : State :=
  if c.oWriteNeedsWritableDest && !loc.writable then s else s.setO v

/-- `WriteBack` of R150: the store to operand A's location first, then O (decision D11, log entry 12). -/
def writeBack (c : Config) (loc : Loc) (value overflow : Word) (s : State) : State :=
  writeO c loc overflow (s.writeLoc loc value)

/-- An instruction of the SET and ALU family with the uniform write-back of its widened result (R150). -/
def writing (c : Config) (result : Word → Word → Int) (a b : Operand) (s : State) : Answer :=
  basic c a b
    (fun r => writeBack c r.locA (lowWord (result r.valA r.valB)) (highWord (result r.valA r.valB)) r.after) s

/-- SET: the uniform write-back, or with `SET_WRITES_O = false` the store alone (R151; decision D9, log entry 10). -/
def writingSet (c : Config) (a b : Operand) (s : State) : Answer :=
  if c.setWritesO then writing c setResult a b s
  else basic c a b (fun r => r.after.writeLoc r.locA (lowWord (setResult r.valA r.valB))) s

/-- SHR: the uniform write-back but for what O receives, which `SHR_O_RULE` says (R158; decision D8, log entry 9). -/
def writingShr (c : Config) (a b : Operand) (s : State) : Answer :=
  basic c a b
    (fun r => writeBack c r.locA (lowWord (shrResult c r.valA r.valB)) (shrOverflow c r.valA r.valB) r.after) s

/-- A conditional instruction: nothing is written but SKIP, and SKIP only when the condition is false (R170). -/
def conditional (c : Config) (holds : Word → Word → Bool) (a b : Operand) (s : State) : Answer :=
  basic c a b (fun r => if holds r.valA r.valB then r.after else r.after.setSkip true) s

end Sys2Proof.Machine
end

