-- ==== Sys2Proof/Machine/Alu.lean ====
section
/-! DEFINITION. The meanings of SET and the ten ALU instructions (42_set_and_alu.md). None of them can raise an
exception. -/

namespace Sys2Proof.Machine

/-- SET a, b: `b` (R151). -/
def execSet (a b : Operand) (s : State) : Answer := writingSet config a b s

/-- ADD a, b: `a + b`, O the carry (R152). -/
def execAdd (a b : Operand) (s : State) : Answer := writing config addResult a b s

/-- SUB a, b: `a - b`, O 0xFFFF on a borrow (R153). -/
def execSub (a b : Operand) (s : State) : Answer := writing config subResult a b s

/-- MUL a, b: `a * b`, O the high word (R154). -/
def execMul (a b : Operand) (s : State) : Answer := writing config mulResult a b s

/-- DIV a, b: the quotient, 0 when `b = 0` (R155). -/
def execDiv (a b : Operand) (s : State) : Answer := writing config divResult a b s

/-- MOD a, b: the remainder, 0 when `b = 0` (R156). -/
def execMod (a b : Operand) (s : State) : Answer := writing config modResult a b s

/-- SHL a, b: `a` shifted left, O the bits shifted out (R157). -/
def execShl (a b : Operand) (s : State) : Answer := writing config (shlResult config) a b s

/-- SHR a, b: `a` shifted right, zeros entering (R158). -/
def execShr (a b : Operand) (s : State) : Answer := writingShr config a b s

/-- AND a, b: bitwise and, O 0 (R159). -/
def execAnd (a b : Operand) (s : State) : Answer := writing config andResult a b s

/-- BOR a, b: bitwise inclusive or, O 0 (R160). -/
def execBor (a b : Operand) (s : State) : Answer := writing config borResult a b s

/-- XOR a, b: bitwise exclusive or, O 0 (R161). -/
def execXor (a b : Operand) (s : State) : Answer := writing config xorResult a b s

end Sys2Proof.Machine
end

