-- ==== Sys2Proof/Machine/Conditional.lean ====
section
/-! DEFINITION. The meanings of the conditional instructions (43_conditional.md). -/

namespace Sys2Proof.Machine

/-- IFE a, b: the next instruction executes when `a = b` (R171). -/
def execIfe (a b : Operand) (s : State) : Answer := conditional config ifeHolds a b s

/-- IFN a, b: the next instruction executes when `a != b` (R172). -/
def execIfn (a b : Operand) (s : State) : Answer := conditional config ifnHolds a b s

/-- IFG a, b: the next instruction executes when `a > b` unsigned (R173). -/
def execIfg (a b : Operand) (s : State) : Answer := conditional config ifgHolds a b s

/-- IFB a, b: the next instruction executes when `(a & b) != 0` (R174). -/
def execIfb (a b : Operand) (s : State) : Answer := conditional config ifbHolds a b s

end Sys2Proof.Machine
end

