-- ==== Sys2Proof/Machine/NonBasic.lean ====
section
/-! DEFINITION. The meanings of the non-basic words: the subroutine call and the illegal words (44_nonbasic.md). -/

namespace Sys2Proof.Machine

/-- JSR a (R180): the operand is resolved, suppressed or not; unsuppressed, its value is read, PC (now past the JSR's
last word) is pushed, and PC becomes the value (decision D15, log entry 16). -/
def execJsr (a : Operand) (s : State) : Answer :=
  let (loc, after) := resolve a s
  if after.skip then .next (after.setSkip false)
  else .next ((after.pushWord after.pc).setPc (after.readLoc loc))

/-- An illegal word under the parameter `FAULT_WHEN_SUPPRESSED` (R182; decision D16, log entry 17): the exception, or,
only with the parameter false and SKIP set, the end of the suppression. The operand field is never resolved. -/
def illegalOpcode (c : Config) (s : State) : Answer :=
  if c.faultWhenSuppressed || !s.skip then .next s.raiseIllegalOpcode else .next (s.setSkip false)

/-- A non-basic word with a sub-opcode other than 0x01 raises `IllegalOpcode` (R182; 60_exceptions.md R193). -/
def execIllegal (_fa _fb : BitVec 6) (s : State) : Answer := illegalOpcode config s

end Sys2Proof.Machine
end

