-- ==== Sys2Proof/Machine/Step.lean ====
section
/-! DEFINITION. One `STEP` of the Execution Engine (41_step_engine.md R130). -/

namespace Sys2Proof.Machine

/-- `STEP`: with the fault latch set nothing happens and the answer is a fault (R142; decision D17, log entry 18);
otherwise fetch, split and decode the word at PC, and execute it. -/
def step (s : State) : Host.Outcome State Fault Refusal :=
  if s.faulted then .fault .faultLatched else exec (decodeWord s.fetchWord) s.afterFetch

/-- The state with an instruction's words stored where `step` fetches: the word `w` numbers from its bit 0, and zero
words after it up to the longest instruction, three words. Nothing is reported, as for `LOAD` (log entry 22). -/
def State.withFetchWord (s : State) (nbits w : Nat) : State :=
  let v := w % 2 ^ nbits
  let put (m : Memory) (k : Nat) : Memory :=
    m.write (s.pc + BitVec.ofNat 16 k).toNat (BitVec.ofNat 16 (v / 2 ^ (16 * k)))
  { s with mem := put (put (put s.mem 0) 1) 2 }

end Sys2Proof.Machine
end

