-- ==== Sys2Proof/Machine/Driver.lean ====
section
/-! DEFINITION. The transactions between the driver and the engine (00_scope.md R6; 60_exceptions.md R206), each taken
whole and one at a time. `OBSERVE` is the list of reports in State; `ENCODE` is in Machine/Encoder.lean. The interface
is the spec's own choice (decision D20; log entry 23). -/

namespace Sys2Proof.Machine

/-- What `INSPECT` can read (60_exceptions.md R203). -/
inductive Place where
  | reg (r : Reg)
  | pc
  | sp
  | o
  | skip
  | mem (addr : Word)
  deriving DecidableEq, Repr

/-- A transaction of R6 that touches the engine's state. -/
inductive Transaction where
  | reset
  | load (words : List Word)
  | step
  | inspect (p : Place)
  deriving DecidableEq, Repr

/-- What the engine answers. -/
inductive Reply where
  /-- `RESET` or `LOAD` is done. -/
  | done
  /-- `STEP` answers `ok`. -/
  | ok
  /-- `STEP` raises `IllegalOpcode` and hands the driver the word and its address (60_exceptions.md R190). -/
  | illegalOpcode (word addr : Word)
  /-- `STEP` with the fault latch already set answers `fault` again (41_step_engine.md R142). -/
  | faultAgain
  /-- The value `INSPECT` reads. -/
  | value (v : Word)
  /-- `LOAD` of more than 0x10000 words is refused (93_implementation_defined.md U13). -/
  | imageTooLong
  /-- The instruction has no meaning in this model; no instruction answers so. -/
  | notInModel
  deriving DecidableEq, Repr

/-- `RESET` (70_reset_and_hazards.md R210). The observer's range is a parameter and the reports already made are the
observer's, so both stay (log entry 21). -/
def State.resetByDriver (s : State) : State :=
  { State.reset with obsLo := s.obsLo, obsHi := s.obsHi, reports := s.reports }

/-- `INSPECT` (60_exceptions.md R203): the current value. -/
def State.inspect (s : State) : Place → Word
  | .reg r => s.reg r
  | .pc => s.pc
  | .sp => s.sp
  | .o => s.o
  | .skip => if s.skip then 1 else 0
  | .mem addr => s.memRead addr

/-- One transaction: the answer and the state after it. -/
def transact (t : Transaction) (s : State) : Reply × State :=
  match t with
  | .reset => (.done, s.resetByDriver)
  | .load words =>
    if 0x10000 < words.length then (.imageTooLong, s)
    else (.done, { s with mem := s.mem.load 0 words })
  | .step =>
    match step s with
    | .next s' => if s'.faulted then (.illegalOpcode s.fetchWord s.pc, s') else (.ok, s')
    | .fault .faultLatched => (.faultAgain, s)
    | .refused _ => (.notInModel, s)
  | .inspect p => (.value (s.inspect p), s)

/-- How a run that takes no further step ends: with `ok` from an engine that has not faulted, and with `fault` from one
that has, since a faulted state is never the final state of a successful run (60_exceptions.md R194; decision D17, log
entry 18). -/
def endRun (s : State) : Reply × State := if s.faulted then (.faultAgain, s) else (.ok, s)

/-- A run: `STEP`s until the predicate `STOP` holds, the budget is used up, or one does not answer `ok`
(41_step_engine.md R143; decision D22). `STOP` is tested before every step, the first one included, so a run from a
state where it holds takes no step; the spec says only that it is tested between steps (DESIGN CHOICE, safe: log entry
23). -/
def runDriver (stop : State → Bool) : Nat → State → Reply × State
  | 0, s => endRun s
  | n + 1, s =>
    if stop s then endRun s
    else
      match transact .step s with
      | (.ok, s') => runDriver stop n s'
      | other => other

end Sys2Proof.Machine
end

