-- ==== Sys2Proof/Machine/Encoder.lean ====
section
/-! DEFINITION. The Instruction Encoder (30_encoding.md section 4): from a mnemonic with abstract operands to words,
with literal folding, range checks, label placeholders and the data directive. The text and the two passes around it
are in Machine/Assembler.lean. -/

namespace Sys2Proof.Machine

/-- A label's name. Two names are the same label only when written alike, upper and lower case told apart: the spec
leaves the case of label names open (91_not_in_source.md N20; DESIGN CHOICE, unsafe where two labels differ in case only: log entry 25). -/
abbrev Label := String

/-- `n` of R61: a number as written, or a label name. -/
inductive Num where
  | num (n : Nat)
  | label (l : Label)
  deriving DecidableEq, Repr

/-- The abstract operands of R61, and a quoted string, whose escapes are already character codes (R84). -/
inductive AsmOperand where
  | reg (r : Reg)
  | regInd (r : Reg)
  | regIdx (r : Reg) (n : Num)
  | pop
  | peek
  | push
  | spVal
  | pcVal
  | oVal
  | memAbs (n : Num)
  | lit (n : Num)
  | str (codes : List Word)
  deriving DecidableEq, Repr

/-- The mnemonic of a basic instruction (R81). -/
def BasicOp.name : BasicOp → String
  | .set => "SET"
  | .add => "ADD"
  | .sub => "SUB"
  | .mul => "MUL"
  | .div => "DIV"
  | .mod => "MOD"
  | .shl => "SHL"
  | .shr => "SHR"
  | .and => "AND"
  | .bor => "BOR"
  | .xor => "XOR"
  | .ife => "IFE"
  | .ifn => "IFN"
  | .ifg => "IFG"
  | .ifb => "IFB"

/-- The mnemonic classes (R81). -/
inductive Mnemonic where
  /-- BASIC, two operands. -/
  | basic (op : BasicOp)
  /-- NON-BASIC, one operand: `JSR` (name: decision D1). -/
  | jsr
  /-- DIRECTIVE, one or two operand tokens: `DAT` (name and count: decision D25). -/
  | dat
  deriving DecidableEq, Repr

/-- Upper-cased, for names that are compared without regard to case (R80, R81). -/
def upperCase (name : String) : String := String.ofList (name.toList.map Char.toUpper)

/-- The lookup of a mnemonic, upper-cased first (R81); `none` for an unknown one. -/
def Mnemonic.ofName (name : String) : Option Mnemonic :=
  let n := upperCase name
  match BasicOp.all.find? (fun op => BasicOp.name op == n) with
  | some op => some (.basic op)
  | none => if n = "JSR" then some .jsr else if n = "DAT" then some .dat else none

/-- Whether a mnemonic takes this many operand tokens (R81; decision D25). -/
def Mnemonic.accepts : Mnemonic → Nat → Bool
  | .basic _, n => n == 2
  | .jsr, n => n == 1
  | .dat, n => n == 1 || n == 2

/-- The three kinds of assembler error (R75). -/
inductive ErrorKind where
  | lexError
  | encodeError
  | linkError
  deriving DecidableEq, Repr

/-- The errors of reading, encoding and linking (R75, R88). -/
inductive AsmError where
  /-- `LexError`: a string that is opened and never closed (R84). -/
  | unterminatedString
  /-- A backslash before a character that makes no escape; the spec is silent (log entry 27). -/
  | unknownEscape (c : Char)
  /-- A character of a string that has no ASCII code; the spec is silent (log entry 27). -/
  | nonAscii (c : Char)
  /-- A label declaration that is no label name, or not before the mnemonic (log entry 27). -/
  | badLabel (text : String)
  /-- A label declaration with no mnemonic after it; the spec is silent (log entry 27). -/
  | labelWithoutMnemonic (l : Label)
  /-- A line with a string where its mnemonic should stand; the spec is silent (log entry 27). -/
  | missingMnemonic
  /-- `EncodeError`, "invalid opcode": an unknown mnemonic, named (R81). -/
  | unknownMnemonic (name : String)
  /-- `EncodeError`, "invalid argument count": the operand count is not the mnemonic's (R81). -/
  | argumentCount
  /-- An operand token in none of the spellings (R82; decisions D26, D27). -/
  | badOperand (text : String)
  /-- `EncodeError`: a value, address or offset outside 0..0xFFFF (R67). -/
  | outOfRange (n : Nat)
  /-- A string as operand of an instruction (R84; decision D28). -/
  | stringOperand
  /-- An operand of a directive that has no data word (R72; U9; log entry 24). -/
  | noDataWord
  /-- `LinkError`: a label nothing defines, with the patch address (R88). -/
  | undefinedLabel (l : Label) (patchAddr : Nat)
  /-- A label defined twice; the spec is silent (log entry 25). -/
  | duplicateLabel (l : Label)
  deriving DecidableEq, Repr

/-- The kind of an error. R75 sorts the unterminated string, the three `EncodeError`s and the undefined label; the
errors the spec gives no kind are sorted by where they arise (log entry 27). -/
def AsmError.kind : AsmError → ErrorKind
  | .unterminatedString => .lexError
  | .unknownEscape _ => .lexError
  | .nonAscii _ => .lexError
  | .badLabel _ => .lexError
  | .labelWithoutMnemonic _ => .lexError
  | .missingMnemonic => .encodeError
  | .unknownMnemonic _ => .encodeError
  | .argumentCount => .encodeError
  | .badOperand _ => .encodeError
  | .outOfRange _ => .encodeError
  | .stringOperand => .encodeError
  | .noDataWord => .encodeError
  | .undefinedLabel _ _ => .linkError
  | .duplicateLabel _ => .encodeError

/-- A word the encoder emits; with a label, it is a placeholder to be patched (R68). -/
structure Emitted where
  word : Word
  label : Option Label
  deriving DecidableEq, Repr

/-- A word that needs no patch. -/
def Emitted.plain (w : Word) : Emitted := { word := w, label := none }

/-- `Val(n)` of R62: the number, range checked (R67), or the placeholder 0x0000 (R68; decision D24). -/
def encodeNum : Num → Except AsmError Emitted
  | .num n => if n ≤ 0xFFFF then .ok (Emitted.plain (BitVec.ofNat 16 n)) else .error (.outOfRange n)
  | .label l => .ok { word := 0x0000, label := some l }

/-- An operand code with the trailing word `n`. -/
def withTrailing (code : Operand) (n : Num) : Except AsmError (Operand × List Emitted) :=
  match encodeNum n with
  | .ok e => .ok (code, [e])
  | .error e => .error e

/-- `EncodeOperand(x, fold)` of R62. Only a plain number folds (R66): not a label, an offset, or `[n]` (decision
D23). -/
def encodeAsmOperand (x : AsmOperand) (fold : Bool) : Except AsmError (Operand × List Emitted) :=
  match x with
  | .reg r => .ok (.reg r, [])
  | .regInd r => .ok (.regInd r, [])
  | .regIdx r n => withTrailing (.regIdx r) n
  | .pop => .ok (.pop, [])
  | .peek => .ok (.peek, [])
  | .push => .ok (.push, [])
  | .spVal => .ok (.spVal, [])
  | .pcVal => .ok (.pcVal, [])
  | .oVal => .ok (.oVal, [])
  | .memAbs n => withTrailing .memAbs n
  | .lit (.num n) =>
    if n ≤ 0x1F && fold then .ok (.lit (BitVec.ofNat 5 n), []) else withTrailing .imm (.num n)
  | .lit (.label l) => withTrailing .imm (.label l)
  | .str _ => .error .stringOperand

/-- The operand class and parameter that R55 assigns to a code with its trailing words: `Class(c, t)` of R73. A small
literal and a next-word literal both come back as the value they denote. -/
def classOf (code : Operand) (trailing : List Word) : Option AsmOperand :=
  match code, trailing with
  | .reg r, [] => some (.reg r)
  | .regInd r, [] => some (.regInd r)
  | .regIdx r, [n] => some (.regIdx r (.num n.toNat))
  | .pop, [] => some .pop
  | .peek, [] => some .peek
  | .push, [] => some .push
  | .spVal, [] => some .spVal
  | .pcVal, [] => some .pcVal
  | .oVal, [] => some .oVal
  | .memAbs, [n] => some (.memAbs (.num n.toNat))
  | .imm, [n] => some (.lit (.num n.toNat))
  | .lit k, [] => some (.lit (.num k.toNat))
  | _, _ => none

/-- `ENCODE` of a basic instruction (R70): operand A first, then operand B. -/
def encodeBasic (c : Config) (op : BasicOp) (xa xb : AsmOperand) : Except AsmError (List Emitted) :=
  match encodeAsmOperand xa true with
  | .error e => .error e
  | .ok (ca, ta) =>
    match encodeAsmOperand xb true with
    | .error e => .error e
    | .ok (cb, tb) => .ok (Emitted.plain (encodeWordAs c (op.instr ca cb)) :: (ta ++ tb))

/-- `ENCODE` of the subroutine call (R71). -/
def encodeNonBasic (c : Config) (x : AsmOperand) : Except AsmError (List Emitted) :=
  match encodeAsmOperand x true with
  | .error e => .error e
  | .ok (cx, t) => .ok (Emitted.plain (encodeWordAs c (.jsr cx)) :: t)

/-- The data words of one operand of a directive (R72): a number or a label unfolded, a string word by word. -/
def encodeData : AsmOperand → Except AsmError (List Emitted)
  | .lit n =>
    match encodeNum n with
    | .ok e => .ok [e]
    | .error e => .error e
  | .str codes => .ok (codes.map Emitted.plain)
  | .reg _ => .error .noDataWord
  | .regInd _ => .error .noDataWord
  | .regIdx _ _ => .error .noDataWord
  | .pop => .error .noDataWord
  | .peek => .error .noDataWord
  | .push => .error .noDataWord
  | .spVal => .error .noDataWord
  | .pcVal => .error .noDataWord
  | .oVal => .error .noDataWord
  | .memAbs _ => .error .noDataWord

/-- The data words of a directive, operand by operand. -/
def encodeDataList : List AsmOperand → Except AsmError (List Emitted)
  | [] => .ok []
  | x :: xs =>
    match encodeData x with
    | .error e => .error e
    | .ok here =>
      match encodeDataList xs with
      | .error e => .error e
      | .ok rest => .ok (here ++ rest)

/-- The words of a mnemonic with its operands, which may be too many or too few (R81). -/
def encodeMnemonic (c : Config) (m : Mnemonic) (xs : List AsmOperand) : Except AsmError (List Emitted) :=
  match m, xs with
  | .basic op, [xa, xb] => encodeBasic c op xa xb
  | .jsr, [x] => encodeNonBasic c x
  | .dat, xs => if Mnemonic.dat.accepts xs.length then encodeDataList xs else .error .argumentCount
  | _, _ => .error .argumentCount

/-- `ENCODE` of one line (R70, R71, R72, R81): the mnemonic is looked up by its name, and an unknown one is an error
that names it as it is written. -/
def encodeLine (name : String) (xs : List AsmOperand) : Except AsmError (List Emitted) :=
  match Mnemonic.ofName name with
  | none => .error (.unknownMnemonic name)
  | some m => encodeMnemonic config m xs

end Sys2Proof.Machine
end

