-- ==== Sys2Proof/Safety.lean ====
section
/-! DEFINITION. What counts as a safe run, in the terms the claims use. -/

namespace Sys2Proof.Machine

/-- The engine has not faulted. A faulted state is never the final state of a successful run (60_exceptions.md R194). -/
def State.running (s : State) : Prop := s.faulted = false

/-- Every report went to an address of the observer's range (20_memory.md R40). -/
def State.reportsInRange (s : State) : Prop := ∀ r ∈ s.reports, s.observed r.addr = true

/-- The invariant of the machine: memory is in canonical form, and the observer was told of its range only. -/
def State.Inv (s : State) : Prop := s.mem.wf = true ∧ s.reportsInRange

/-- A running engine takes `k` steps, each of which answers a next state that has not faulted: no state of the run is
a faulted one, the first and the last included (60_exceptions.md R194). -/
def safeFor : Nat → State → Bool
  | 0, s => !s.faulted
  | k + 1, s =>
    match step s with
    | .next t => safeFor k t
    | .fault _ => false
    | .refused _ => false

end Sys2Proof.Machine
end

