-- ==== Sys2Proof/Certificates/Slice0/Obligations.lean ====
section
/-! DEFINITION. The statements about the model, for the provers. `Sys2Proof.Claims` holds the spec's tables in a form of
their own, written out from the rules and not from the model's text, so that a statement compares the two. -/

namespace Sys2Proof.Claims

open Sys2Proof.Machine

/-- SP after an operand is resolved (40_operand_resolver.md R104, R106). -/
def spAfter (x : Operand) (sp : Word) : Word :=
  match x with
  | .pop => sp + 1
  | .push => sp - 1
  | .reg _ => sp
  | .regInd _ => sp
  | .regIdx _ => sp
  | .peek => sp
  | .spVal => sp
  | .pcVal => sp
  | .oVal => sp
  | .memAbs => sp
  | .imm => sp
  | .lit _ => sp

/-- PC after an operand is resolved: past its trailing word, if it has one (R103, R110, R111). -/
def pcAfter (x : Operand) (pc : Word) : Word :=
  match x with
  | .regIdx _ => pc + 1
  | .memAbs => pc + 1
  | .imm => pc + 1
  | .reg _ => pc
  | .regInd _ => pc
  | .pop => pc
  | .peek => pc
  | .push => pc
  | .spVal => pc
  | .pcVal => pc
  | .oVal => pc
  | .lit _ => pc

/-- The state after an operand is resolved. -/
def moved (x : Operand) (s : State) : State := { s with pc := pcAfter x s.pc, sp := spAfter x s.sp }

/-- The location an operand names in a state (R101 to R113). -/
def locOf (x : Operand) (s : State) : Loc :=
  match x with
  | .reg r => .reg r
  | .regInd r => .mem (s.reg r)
  | .regIdx r => .mem (s.reg r + s.memRead s.pc)
  | .pop => .mem s.sp
  | .peek => .mem s.sp
  | .push => .mem (s.sp - 1)
  | .spVal => .sp
  | .pcVal => .pc
  | .oVal => .o
  | .memAbs => .mem (s.memRead s.pc)
  | .imm => .mem s.pc
  | .lit k => .lit k

/-- The state after operand A and then operand B are resolved (R115). -/
def afterBoth (a b : Operand) (s : State) : State := moved b (moved a s)

/-- Operand A's value, read after both operands are resolved (41_step_engine.md R135; decision D12). -/
def valA (a b : Operand) (s : State) : Word := (afterBoth a b s).readLoc (locOf a s)

/-- Operand B's value, at the location it names after A was resolved. -/
def valB (a b : Operand) (s : State) : Word := (afterBoth a b s).readLoc (locOf b (moved a s))

/-- An unsuppressed instruction of the SET and ALU family completes for every operand form and every state: it stores
`value a b` at A's location (a small literal drops the store), then writes `overflow a b` to O, and does nothing more than
resolution did. -/
def Writes (op : Operand → Operand → Instr) (value overflow : Word → Word → Word) : Prop :=
  ∀ (a b : Operand) (s : State), s.skip = false →
    exec (op a b) s =
      .next (((afterBoth a b s).writeLoc (locOf a s) (value (valA a b s) (valB a b s))).setO
        (overflow (valA a b s) (valB a b s)))

/-- An unsuppressed conditional completes for every operand form and every state: nothing but resolution's effect when
the condition holds, and SKIP set besides when it does not. -/
def Skips (op : Operand → Operand → Instr) (holds : Word → Word → Prop) : Prop :=
  ∀ (a b : Operand) (s : State), s.skip = false →
    (holds (valA a b s) (valB a b s) → exec (op a b) s = .next (afterBoth a b s)) ∧
    (¬ holds (valA a b s) (valB a b s) → exec (op a b) s = .next ((afterBoth a b s).setSkip true))

/-- The instructions that write operand A (42_set_and_alu.md). -/
def writingOps : List (Operand → Operand → Instr) :=
  [.set, .add, .sub, .mul, .div, .mod, .shl, .shr, .and, .bor, .xor]

/-- The conditional instructions (43_conditional.md). -/
def conditionalOps : List (Operand → Operand → Instr) := [.ife, .ifn, .ifg, .ifb]

/-- The conditional instructions with the conditions of 43_conditional.md R175. -/
def conditions : List ((Operand → Operand → Instr) × (Word → Word → Prop)) :=
  [(.ife, fun a b => a = b), (.ifn, fun a b => a ≠ b), (.ifg, fun a b => b.toNat < a.toNat),
    (.ifb, fun a b => a &&& b ≠ 0)]

/-- The instructions that write operand A with the word each stores, the low word of the result in 42_set_and_alu.md
R162. -/
def storedValues : List ((Operand → Operand → Instr) × (Word → Word → Word)) :=
  [(.set, fun _ b => b), (.add, fun a b => a + b), (.sub, fun a b => a - b), (.mul, fun a b => a * b),
    (.div, fun a b => if b = 0 then 0 else a / b), (.mod, fun a b => if b = 0 then 0 else a % b),
    (.shl, fun a b => if b.toNat < 16 then a <<< b.toNat else 0),
    (.shr, fun a b => if b.toNat < 16 then a >>> b.toNat else 0),
    (.and, fun a b => a &&& b), (.bor, fun a b => a ||| b), (.xor, fun a b => a ^^^ b)]

/-- An illegal non-basic word: `w[3:0] = 0` and `w[9:4] != 0x01` (60_exceptions.md R190). -/
def illegalWord (w : Word) : Prop := w.toNat % 16 = 0 ∧ w.toNat / 16 % 64 ≠ 0x01

/-- `T(c)` of 30_encoding.md R54, by code. -/
def codeTrailing (c : Nat) : Nat := if (0x10 ≤ c ∧ c ≤ 0x17) ∨ c = 0x1E ∨ c = 0x1F then 1 else 0

/-- The number of trailing words an instruction word asks for (R54); none for an illegal word (R182). -/
def wordTrailing (w : Word) : Nat :=
  if w.toNat % 16 ≠ 0 then codeTrailing (w.toNat / 16 % 64) + codeTrailing (w.toNat / 1024)
  else if w.toNat / 16 % 64 = 0x01 then codeTrailing (w.toNat / 1024)
  else 0

/-- Two states with the same everything but the write observer's range and reports. -/
def sameEngine (s t : State) : Prop :=
  s.regs = t.regs ∧ s.pc = t.pc ∧ s.sp = t.sp ∧ s.o = t.o ∧ s.skip = t.skip ∧ s.faulted = t.faulted ∧ s.mem = t.mem

/-- `SET`'s abstract operands with numbers in range (30_encoding.md R61, R73). -/
def numeric : AsmOperand → Prop
  | .regIdx _ (.num n) => n ≤ 0xFFFF
  | .memAbs (.num n) => n ≤ 0xFFFF
  | .lit (.num n) => n ≤ 0xFFFF
  | .regIdx _ (.label _) => False
  | .memAbs (.label _) => False
  | .lit (.label _) => False
  | .str _ => False
  | .reg _ => True
  | .regInd _ => True
  | .pop => True
  | .peek => True
  | .push => True
  | .spVal => True
  | .pcVal => True
  | .oVal => True

/-- The words stand in memory from an address on, which wraps (20_memory.md R31). -/
def stands (s : State) : Word → List Word → Prop
  | _, [] => True
  | a, w :: ws => s.memRead a = w ∧ stands s (a + 1) ws

end Sys2Proof.Claims

open Sys2Proof Sys2Proof.Machine Sys2Proof.Claims

/-! ## Reset, and the invariant -/

/-- Reset leaves every register, PC, SP, O and memory word zero, SKIP and FAULTED clear, and nothing observed
(10_state.md section 11, 70_reset_and_hazards.md section 1). The zeros are the spec's own choice (decision D18; log
entries 2, 3, 4, 21). -/
def Obligations.ResetLeavesZeros : Prop :=
  (∀ r, State.reset.reg r = 0x0000) ∧ State.reset.pc = 0x0000 ∧ State.reset.sp = 0x0000 ∧ State.reset.o = 0x0000 ∧
  State.reset.skip = false ∧ State.reset.faulted = false ∧ (∀ a, State.reset.memRead a = 0x0000) ∧
  (∀ a, State.reset.observed a = false) ∧ State.reset.reports = []

/-- The invariant holds right after reset. The canonical list is the model's form of memory (log entry 1), and the empty
list of reports is the model's choice (log entry 21). -/
def Obligations.ResetMeetsInvariant : Prop := State.reset.Inv

/-- Every step keeps the invariant, from every state that meets it: memory stays in its one canonical form (log entry
1), and every report to the write observer is of an address in its range (20_memory.md section 5; decision D21). -/
def Obligations.StepKeepsInvariant : Prop := ∀ s t : State, s.Inv → step s = .next t → t.Inv

/-! ## Encoding -/

/-- Decoding an encoded well-formed instruction gives it back, alone and with any trailing words of the right number in
front of any further words. -/
def Obligations.DecodeOfEncodeIsTheInstruction : Prop :=
  ∀ i : Instr, i.wf = true →
    decodeWord (encodeWord i) = i ∧
    ∀ trailing rest : List Word, trailing.length = i.trailing →
      decode (encode i trailing ++ rest) = .ok (i, trailing, rest)

/-- Every one of the 65536 words decodes to a well-formed instruction whose encoding is that word: no bit is dropped and
no two instructions share a word. -/
def Obligations.EncodeOfDecodeIsTheWord : Prop :=
  ∀ w : Word, (decodeWord w).wf = true ∧ encodeWord (decodeWord w) = w

/-- A word is illegal exactly when its low nibble is 0 and its sub-opcode is not 0x01, and it is a subroutine call
exactly when its low ten bits are 0x010. -/
def Obligations.IllegalAndCallWordsAreTheNonBasicOnes : Prop :=
  ∀ w : Word,
    ((∃ fa fb, decodeWord w = .illegal fa fb) ↔ illegalWord w) ∧
    ((∃ a, decodeWord w = .jsr a) ↔ w.toNat % 1024 = 0x010)

/-- The number of trailing words follows from the instruction word alone, by the operand codes of its fields; a sequence
of words is decoded exactly when it holds them.
That an illegal word, to which the spec gives no length, takes none is the model's choice (log entry 17). -/
def Obligations.LengthIsKnownFromTheWord : Prop :=
  ∀ (w : Word) (ws : List Word),
    (decodeWord w).trailing = wordTrailing w ∧
    ((∃ r, decode (w :: ws) = .ok r) ↔ wordTrailing w ≤ ws.length)

/-- The encoder's operand code and trailing word denote the abstract operand they were made from, for every operand with
numbers in range; a plain number folds exactly when it is at most 0x1F. -/
def Obligations.EncodedOperandDenotesTheOperand : Prop :=
  ∀ x : AsmOperand, numeric x →
    ∃ (code : Operand) (out : List Emitted),
      encodeAsmOperand x true = .ok (code, out) ∧ out.length = code.trailing ∧ (∀ e ∈ out, e.label = none) ∧
      classOf (decodeOperand (encodeOperand code)) (out.map Emitted.word) = some x ∧
      (∀ n, x = .lit (.num n) → (code.hasTrailing = false ↔ n ≤ 0x1F))

/-- A literal, an address or an offset outside 0..0xFFFF is refused as out of range, in an instruction and in a
directive. -/
def Obligations.OutOfRangeNumbersAreRefused : Prop :=
  ∀ (n : Nat) (fold : Bool) (r : Reg), 0xFFFF < n →
    encodeAsmOperand (.lit (.num n)) fold = .error (.outOfRange n) ∧
    encodeAsmOperand (.memAbs (.num n)) fold = .error (.outOfRange n) ∧
    encodeAsmOperand (.regIdx r (.num n)) fold = .error (.outOfRange n) ∧
    encodeData (.lit (.num n)) = .error (.outOfRange n)

/-- Encoder, memory, decoder, resolver and engine agree: the words the encoder makes of `SET r, n`, for any register and
any number 0..0xFFFF, folded or not, standing at PC, run in one step that puts `n` in `r` and PC past them. -/
def Obligations.EncodedSetLoadsItsLiteral : Prop :=
  ∀ (r : Reg) (n : Nat) (s : State), n ≤ 0xFFFF → s.faulted = false → s.skip = false →
    ∃ out : List Emitted,
      encodeLine "SET" [.reg r, .lit (.num n)] = .ok out ∧
      (stands s s.pc (out.map Emitted.word) →
        ∃ t, step s = .next t ∧ t.reg r = BitVec.ofNat 16 n ∧ t.pc = s.pc + BitVec.ofNat 16 out.length ∧
          t.sp = s.sp ∧ (∀ q, q ≠ r → t.reg q = s.reg q) ∧ t.mem = s.mem)

/-- Words written out from the encoding rules decode to the instruction they stand for. The opcode and register numbers
are from general knowledge (decisions D1, D2; log entries 5, 6). -/
def Obligations.WrittenOutWordsDecode : Prop :=
  decodeWord 0x9401 = .set (.reg .A) (.lit 5) ∧
  decodeWord 0x5961 = .set (.regIdx .I) (.regIdx .I) ∧
  decodeWord 0x89E2 = .add .memAbs (.lit 2) ∧
  decodeWord 0x0405 = .div (.reg .A) (.reg .B) ∧
  decodeWord 0x806D = .ifn (.reg .I) (.lit 0) ∧
  decodeWord 0x61C1 = .set .pcVal .pop ∧
  decodeWord 0x7C10 = .jsr .imm ∧
  decodeWord 0x6020 = .illegal 0x02 0x18

/-! ## The step -/

/-- When the word at PC decodes to an instruction, a step of an engine that has not faulted is that instruction's
execution with PC moved past the word; the instruction itself moves PC past its trailing words. -/
def Obligations.StepRunsTheDecodedInstruction : Prop :=
  ∀ (s : State) (i : Instr), s.faulted = false → decodeWord (s.memRead s.pc) = i →
    step s = exec i { s with pc := s.pc + 1 }

/-- With the fault latch set a step is a fault, and the driver's STEP answers so and changes nothing. The latch is the
spec's own choice (decision D17; log entry 18). -/
def Obligations.FaultLatchStopsTheEngine : Prop :=
  ∀ s : State, s.faulted = true → step s = .fault .faultLatched ∧ transact .step s = (.faultAgain, s)

/-- An illegal word, suppressed or not, takes the exception: PC one past the word, FAULTED set, everything else as
before; and the driver's STEP hands over the word and its address. The point of the fault is the spec's own choice
(decision D16; log entries 17, 18). -/
def Obligations.IllegalWordTakesTheException : Prop :=
  ∀ s : State, s.faulted = false → illegalWord (s.memRead s.pc) →
    step s = .next { s with pc := s.pc + 1, faulted := true } ∧
    transact .step s = (.illegalOpcode (s.memRead s.pc) s.pc, { s with pc := s.pc + 1, faulted := true })

/-- Executing an illegal word sets the fault latch and changes nothing else: no register, no SP movement, no memory, no
SKIP (decision D16; log entry 17). That it completes, with a next state
whose latch is set, where the spec's `STEP` answers `fault`, is the model's choice (decision D17; log entry 18). -/
def Obligations.IllegalOnlySetsTheLatch : Prop :=
  ∀ (fa fb : BitVec 6) (s : State), exec (.illegal fa fb) s = .next { s with faulted := true }

/-- No basic word is illegal, no operand faults, and an engine that has not faulted always answers a next state, which
has faulted only if the word was an illegal non-basic one. That the fault's entry is itself a next state is the model's
choice (decision D17; log entry 18). -/
def Obligations.OnlyIllegalWordsFault : Prop :=
  ∀ s : State, s.faulted = false →
    (∃ t, step s = .next t) ∧
    (∀ t, step s = .next t → t.faulted = true → illegalWord (s.memRead s.pc)) ∧
    ((s.memRead s.pc).toNat % 16 ≠ 0 → ∃ t, step s = .next t ∧ t.faulted = false)

/-! ## The Operand Resolver -/

/-- The 64-entry table: the location each code names and how it moves PC and SP; nothing else of the state changes and
no code faults. -/
def Obligations.ResolverTable : Prop :=
  ∀ (c : Nat) (s : State), c < 0x40 →
    resolve (decodeOperand c) s =
      if c ≤ 0x07 then (.reg (Reg.ofNumber c), s)
      else if c ≤ 0x0F then (.mem (s.reg (Reg.ofNumber (c - 0x08))), s)
      else if c ≤ 0x17 then (.mem (s.reg (Reg.ofNumber (c - 0x10)) + s.memRead s.pc), { s with pc := s.pc + 1 })
      else if c = 0x18 then (.mem s.sp, { s with sp := s.sp + 1 })
      else if c = 0x19 then (.mem s.sp, s)
      else if c = 0x1A then (.mem (s.sp - 1), { s with sp := s.sp - 1 })
      else if c = 0x1B then (.sp, s)
      else if c = 0x1C then (.pc, s)
      else if c = 0x1D then (.o, s)
      else if c = 0x1E then (.mem (s.memRead s.pc), { s with pc := s.pc + 1 })
      else if c = 0x1F then (.mem s.pc, { s with pc := s.pc + 1 })
      else (.lit (BitVec.ofNat 5 (c - 0x20)), s)

/-- What each operand reads as a source: `SET r, b` puts in `r` the value the operand's rule gives, for every class of
operand B; PC passes the trailing word and SP moves by the stack code. Reading the push code follows the spec's own
choice (decision D14; log entry 15). -/
def Obligations.SourceOperandValues : Prop :=
  ∀ (r : Reg) (b : Operand) (s : State), s.skip = false →
    ∃ t, exec (.set (.reg r) b) s = .next t ∧
      t.reg r =
        (match b with
        | .reg q => s.reg q
        | .regInd q => s.memRead (s.reg q)
        | .regIdx q => s.memRead (s.reg q + s.memRead s.pc)
        | .pop => s.memRead s.sp
        | .peek => s.memRead s.sp
        | .push => s.memRead (s.sp - 1)
        | .spVal => s.sp
        | .pcVal => s.pc
        | .oVal => s.o
        | .memAbs => s.memRead (s.memRead s.pc)
        | .imm => s.memRead s.pc
        | .lit k => BitVec.ofNat 16 k.toNat) ∧
      t.pc = pcAfter b s.pc ∧ t.sp = spAfter b s.sp

/-- Where each operand stores as a destination: `SET a, k`, for every class of operand A. O as destination ends 0
because SET writes O (decision D9; log entry 10) and writes it second (decision D11; log entry 12); the next-word
literal stores into its own trailing word (decision D13; log entry 14); the pop code stores at the old SP (decision
D14; log entry 15); a small literal stores nothing. -/
def Obligations.DestinationOperandStores : Prop :=
  ∀ (a : Operand) (k : BitVec 5) (s : State), s.skip = false →
    ∃ t, exec (.set a (.lit k)) s = .next t ∧
      (match a with
      | .reg q => t.reg q = k.setWidth 16
      | .regInd q => t.memRead (s.reg q) = k.setWidth 16
      | .regIdx q => t.memRead (s.reg q + s.memRead s.pc) = k.setWidth 16
      | .pop => t.memRead s.sp = k.setWidth 16 ∧ t.sp = s.sp + 1
      | .peek => t.memRead s.sp = k.setWidth 16 ∧ t.sp = s.sp
      | .push => t.memRead (s.sp - 1) = k.setWidth 16 ∧ t.sp = s.sp - 1
      | .spVal => t.sp = k.setWidth 16
      | .pcVal => t.pc = k.setWidth 16
      | .oVal => t.o = 0x0000
      | .memAbs => t.memRead (s.memRead s.pc) = k.setWidth 16
      | .imm => t.memRead s.pc = k.setWidth 16
      | .lit _ => t.regs = s.regs ∧ t.mem = s.mem ∧ t.sp = s.sp ∧ t.pc = s.pc)

/-- An operand A that names SP or PC sees what operand B's resolution did: the value is read after both are resolved,
the spec's own choice (decision D12; log entry 13).
That ADD SP, PUSH reads the push code as a source is decision D14 (log entry 15). -/
def Obligations.OperandASeesTheMovesOfOperandB : Prop :=
  ∀ s : State, s.skip = false →
    (∃ t, exec (.add .spVal .pop) s = .next t ∧ t.sp = (s.sp + 1) + s.memRead s.sp) ∧
    (∃ t, exec (.add .spVal .push) s = .next t ∧ t.sp = (s.sp - 1) + s.memRead (s.sp - 1)) ∧
    (∃ t, exec (.add .pcVal .imm) s = .next t ∧ t.pc = (s.pc + 1) + s.memRead s.pc)

/-- Stack operands in both slots: the two locations and SP after, the spec's table of eight pairs.
That the stack codes do the same in either slot is decision D14 (log entry 15). -/
def Obligations.StackOperandPairs : Prop :=
  ∀ s : State,
    let locs (a b : Operand) : Loc × Loc × Word :=
      ((resolve a s).1, (resolve b (resolve a s).2).1, (resolve b (resolve a s).2).2.sp)
    locs .push .pop = (.mem (s.sp - 1), .mem (s.sp - 1), s.sp) ∧
    locs .pop .push = (.mem s.sp, .mem s.sp, s.sp) ∧
    locs .peek .pop = (.mem s.sp, .mem s.sp, s.sp + 1) ∧
    locs .pop .peek = (.mem s.sp, .mem (s.sp + 1), s.sp + 1) ∧
    locs .pop .pop = (.mem s.sp, .mem (s.sp + 1), s.sp + 2) ∧
    locs .push .push = (.mem (s.sp - 1), .mem (s.sp - 2), s.sp - 2) ∧
    locs .push .peek = (.mem (s.sp - 1), .mem (s.sp - 1), s.sp - 1) ∧
    locs .peek .push = (.mem s.sp, .mem (s.sp - 1), s.sp - 1)

/-! ## SET and the ALU instructions

Each statement gives the whole next state for every operand form. Which O is left where operand A is a small literal or
O itself, and when A's value is read, are the spec's own choices (decisions D10, D11, D12; log entries 11, 12, 13), and so
are the store through code 0x1F and the stack codes in either slot (decisions D13, D14; log entries 14, 15); a further
decision is named at each. -/

/-- SET stores `b` and clears O (that SET writes O: decision D9, log entry 10). -/
def Obligations.SetStoresOperandB : Prop := Writes .set (fun _ b => b) (fun _ _ => 0)

/-- ADD stores the sum modulo 2^16, and O is 1 exactly when the sum is 2^16 or more. -/
def Obligations.AddStoresSumAndCarry : Prop :=
  Writes .add (fun a b => a + b) (fun a b => if 0x10000 ≤ a.toNat + b.toNat then 1 else 0)

/-- SUB stores `a - b` modulo 2^16, and O is 0xFFFF exactly when `a < b` (decisions D3, D5; log entry 19). -/
def Obligations.SubStoresDifferenceAndBorrow : Prop :=
  Writes .sub (fun a b => a - b) (fun a b => if a.toNat < b.toNat then 0xFFFF else 0)

/-- MUL stores the low word of the 32-bit product, and O its high word. -/
def Obligations.MulStoresProductLowAndHigh : Prop :=
  Writes .mul (fun a b => a * b) (fun a b => BitVec.ofNat 16 (a.toNat * b.toNat / 0x10000))

/-- DIV stores the quotient, 0 when `b = 0`, and clears O; it never faults (decisions D3, D6; log entry 19). -/
def Obligations.DivStoresQuotient : Prop :=
  Writes .div (fun a b => if b = 0 then 0 else BitVec.ofNat 16 (a.toNat / b.toNat)) (fun _ _ => 0)

/-- MOD stores the remainder, 0 when `b = 0`, and clears O; it never faults (decision D3; log entry 19). -/
def Obligations.ModStoresRemainder : Prop :=
  Writes .mod (fun a b => if b = 0 then 0 else BitVec.ofNat 16 (a.toNat % b.toNat)) (fun _ _ => 0)

/-- SHL by count: the word shifted left, and in O the bits shifted out of the top; for a count of 32 or more both are 0
(decisions D3, D7; log entries 8, 19). -/
def Obligations.ShlStoresShiftedWordAndBitsOut : Prop :=
  Writes .shl (fun a b => if b.toNat < 16 then a <<< b.toNat else 0)
    (fun a b =>
      if b.toNat ≤ 16 then a >>> (16 - b.toNat) else if b.toNat < 32 then a <<< (b.toNat - 16) else 0)

/-- SHR by count: zeros enter at the top, O is cleared (decisions D3, D7, D8; log entries 8, 9, 19). -/
def Obligations.ShrStoresShiftedWord : Prop :=
  Writes .shr (fun a b => if b.toNat < 16 then a >>> b.toNat else 0) (fun _ _ => 0)

/-- AND stores the bitwise and, and clears O. -/
def Obligations.AndStoresBitwiseAnd : Prop := Writes .and (fun a b => a &&& b) (fun _ _ => 0)

/-- BOR stores the bitwise inclusive or, and clears O (inclusive: decision D3, log entry 19). -/
def Obligations.BorStoresBitwiseOr : Prop := Writes .bor (fun a b => a ||| b) (fun _ _ => 0)

/-- XOR stores the bitwise exclusive or, and clears O. -/
def Obligations.XorStoresBitwiseXor : Prop := Writes .xor (fun a b => a ^^^ b) (fun _ _ => 0)

/-- What an instruction that writes operand A leaves unchanged when it gives a next state: every general register but a
register operand A, SP and PC but for resolution's moves or an operand A that names them, every memory word but the one
at operand A's location, the reports but for that store's, and, suppressed, all of these and O. SKIP ends clear.
The location of code 0x1F is decision D13 (log entry 14), those of the stack codes in either slot decision D14 (log
entry 15). -/
def Obligations.WritingInstructionsFrame : Prop :=
  ∀ op ∈ writingOps, ∀ (a b : Operand) (s t : State), exec (op a b) s = .next t →
    (∀ r, (s.skip = true ∨ a ≠ .reg r) → t.reg r = s.reg r) ∧
    ((s.skip = true ∨ a ≠ .spVal) → t.sp = spAfter b (spAfter a s.sp)) ∧
    ((s.skip = true ∨ a ≠ .pcVal) → t.pc = pcAfter b (pcAfter a s.pc)) ∧
    (s.skip = true → t.o = s.o) ∧
    t.skip = false ∧ t.faulted = s.faulted ∧ t.obsLo = s.obsLo ∧ t.obsHi = s.obsHi ∧
    (∀ x, (s.skip = true ∨ (resolve a s).1 ≠ .mem x) → t.memRead x = s.memRead x) ∧
    ((s.skip = true ∨ ∀ x, (resolve a s).1 ≠ .mem x) → t.reports = s.reports)

/-! ## The conditional instructions

When A's value is read, and a push code read as a source, are the spec's own choices (decisions D12, D14; log entries 13,
15). -/

/-- IFE goes on when the operands are equal and suppresses the next instruction when they are not. -/
def Obligations.IfeSkipsUnlessEqual : Prop := Skips .ife (fun a b => a = b)

/-- IFN goes on when the operands differ (decision D4; log entry 20). -/
def Obligations.IfnSkipsUnlessDifferent : Prop := Skips .ifn (fun a b => a ≠ b)

/-- IFG goes on when `a > b` as unsigned numbers (decision D4; log entry 20). -/
def Obligations.IfgSkipsUnlessGreater : Prop := Skips .ifg (fun a b => b.toNat < a.toNat)

/-- IFB goes on when the operands share a set bit (decision D4; log entry 20). -/
def Obligations.IfbSkipsUnlessCommonBit : Prop := Skips .ifb (fun a b => ∃ n, a.getLsbD n = true ∧ b.getLsbD n = true)

/-- A conditional writes nothing but SKIP, whatever its operands: no register, not O, no memory word, no report; PC and
SP move by resolution only. -/
def Obligations.ConditionalInstructionsFrame : Prop :=
  ∀ op ∈ conditionalOps, ∀ (a b : Operand) (s t : State), exec (op a b) s = .next t →
    t.regs = s.regs ∧ t.o = s.o ∧ t.mem = s.mem ∧ t.faulted = s.faulted ∧
    t.obsLo = s.obsLo ∧ t.obsHi = s.obsHi ∧ t.reports = s.reports ∧
    t.pc = pcAfter b (pcAfter a s.pc) ∧ t.sp = spAfter b (spAfter a s.sp)

/-! ## The subroutine call -/

/-- JSR pushes the address of the next instruction and jumps to the operand's value, read before the push; the whole
next state, for every operand (the order of read and push: decision D15, log entry 16).
Reading the push code as JSR's operand is decision D14 (log entry 15). -/
def Obligations.JsrPushesReturnAddressAndJumps : Prop :=
  ∀ (a : Operand) (s : State), s.skip = false →
    exec (.jsr a) s =
      .next
        { (({ s with sp := spAfter a s.sp - 1 } : State).memWrite (spAfter a s.sp - 1) (pcAfter a s.pc)) with
          pc := (moved a s).readLoc (locOf a s) }

/-- The spec's table of JSR corner cases: target, SP after, and the word pushed, operand by operand, and the next-word
literal besides (decision D15; log entry 16).
That JSR PUSH reads the push code as a source is decision D14 (log entry 15). -/
def Obligations.JsrCornerCases : Prop :=
  ∀ s : State, s.skip = false →
    (∀ k, ∃ t, exec (.jsr (.lit k)) s = .next t ∧ t.pc = k.setWidth 16 ∧ t.sp = s.sp - 1 ∧
      t.memRead (s.sp - 1) = s.pc) ∧
    (∀ r, ∃ t, exec (.jsr (.reg r)) s = .next t ∧ t.pc = s.reg r ∧ t.sp = s.sp - 1 ∧ t.memRead (s.sp - 1) = s.pc) ∧
    (∃ t, exec (.jsr .pop) s = .next t ∧ t.pc = s.memRead s.sp ∧ t.sp = s.sp ∧ t.memRead s.sp = s.pc) ∧
    (∃ t, exec (.jsr .peek) s = .next t ∧ t.pc = s.memRead s.sp ∧ t.sp = s.sp - 1 ∧ t.memRead (s.sp - 1) = s.pc) ∧
    (∃ t, exec (.jsr .push) s = .next t ∧ t.pc = s.memRead (s.sp - 1) ∧ t.sp = s.sp - 2 ∧
      t.memRead (s.sp - 2) = s.pc) ∧
    (∃ t, exec (.jsr .spVal) s = .next t ∧ t.pc = s.sp ∧ t.sp = s.sp - 1 ∧ t.memRead (s.sp - 1) = s.pc) ∧
    (∃ t, exec (.jsr .pcVal) s = .next t ∧ t.pc = s.pc ∧ t.sp = s.sp - 1 ∧ t.memRead (s.sp - 1) = s.pc) ∧
    (∃ t, exec (.jsr .oVal) s = .next t ∧ t.pc = s.o ∧ t.sp = s.sp - 1 ∧ t.memRead (s.sp - 1) = s.pc ∧ t.o = s.o) ∧
    (∃ t, exec (.jsr .imm) s = .next t ∧ t.pc = s.memRead s.pc ∧ t.sp = s.sp - 1 ∧
      t.memRead (s.sp - 1) = s.pc + 1)

/-- What JSR leaves unchanged when it gives a next state: the general registers, O, the latch, and every memory word but
the new top of stack; suppressed, all of memory, and PC only passes the trailing word. That JSR leaves O is the spec's
own choice (decision D15; log entry 16). -/
def Obligations.JsrFrame : Prop :=
  ∀ (a : Operand) (s t : State), exec (.jsr a) s = .next t →
    t.regs = s.regs ∧ t.o = s.o ∧ t.skip = false ∧ t.faulted = s.faulted ∧ t.obsLo = s.obsLo ∧ t.obsHi = s.obsHi ∧
    (∀ x, (s.skip = true ∨ x ≠ (resolve a s).2.sp - 1) → t.memRead x = s.memRead x) ∧
    (s.skip = true → t.pc = pcAfter a s.pc ∧ t.sp = spAfter a s.sp ∧ t.reports = s.reports)

/-! ## Suppression -/

/-- An instruction entered with SKIP set, whatever it is (an illegal word apart, which faults), completes and changes
exactly PC, moved past its trailing words, SP, moved by its stack operands, and SKIP, cleared. -/
def Obligations.SuppressedInstructionOnlyMovesPcAndSp : Prop :=
  ∀ (i : Instr) (s : State), s.skip = true → (∀ fa fb, i ≠ .illegal fa fb) →
    exec i s =
      .next { s with
        pc := i.operands.foldl (fun w x => pcAfter x w) s.pc
        sp := i.operands.foldl (fun w x => spAfter x w) s.sp
        skip := false }

/-- Exactly one instruction is suppressed per set flag: when a step sets SKIP, the next one, if its word is legal,
completes with SKIP clear and with every register, O and memory as before it, a conditional included; and the step after
that runs its instruction unsuppressed. -/
def Obligations.OneSuppressionPerSetFlag : Prop :=
  ∀ s t : State, s.skip = false → step s = .next t → t.skip = true → ¬ illegalWord (t.memRead t.pc) →
    ∃ u, step t = .next u ∧ u.skip = false ∧ u.faulted = false ∧ u.regs = t.regs ∧ u.o = t.o ∧ u.mem = t.mem ∧
      step u = exec (decodeWord (u.memRead u.pc)) { u with pc := u.pc + 1 }

/-- SKIP is set only by an unsuppressed conditional, and a step that starts with SKIP set ends with it clear unless its
word is illegal. -/
def Obligations.SkipIsSetOnlyByConditionals : Prop :=
  ∀ s t : State, step s = .next t →
    (s.skip = false → t.skip = true → ∃ op ∈ conditionalOps, ∃ a b, decodeWord (s.memRead s.pc) = op a b) ∧
    (s.skip = true → t.skip = true → illegalWord (s.memRead s.pc))

/-- The branch idiom: any conditional followed in memory by `SET PC, x`, for any operand `x`, branches to the value of
`x` when the condition holds; when it does not, the jump is suppressed and PC ends after it. The conditions of IFN, IFG
and IFB are decision D4 (log entry 20), the reading of operand A decision D12 (log entry 13).
A push code read as a source is decision D14 (log entry 15). -/
def Obligations.ConditionalBranchIdiom : Prop :=
  ∀ p ∈ conditions, ∀ (a b x : Operand) (s : State), s.faulted = false → s.skip = false →
    decodeWord (s.memRead s.pc) = p.1 a b →
    decodeWord (s.memRead (pcAfter b (pcAfter a (s.pc + 1)))) = .set .pcVal x →
    ∃ t u, step s = .next t ∧ step t = .next u ∧ u.skip = false ∧
      let va := valA a b { s with pc := s.pc + 1 }
      let vb := valB a b { s with pc := s.pc + 1 }
      (p.2 va vb → u.pc = valB .pcVal x { t with pc := t.pc + 1 }) ∧
      (¬ p.2 va vb → u.pc = pcAfter x (pcAfter b (pcAfter a (s.pc + 1)) + 1))

/-! ## The whole machine -/

/-- A step changes a general register only when it is operand A of an unsuppressed SET or ALU instruction.
That a faulting step leaves the registers is decision D16 (log entry 17). -/
def Obligations.RegistersChangeOnlyAsOperandA : Prop :=
  ∀ (s t : State) (r : Reg), step s = .next t → t.reg r ≠ s.reg r →
    s.skip = false ∧ ∃ op ∈ writingOps, ∃ b, decodeWord (s.memRead s.pc) = op (.reg r) b

/-- A step changes O only when its instruction is an unsuppressed SET or ALU instruction. That JSR leaves O is decision
D15 (log entry 16), that a faulting step does is decision D16 (log entry 17). -/
def Obligations.OverflowChangesOnlyByWritingInstructions : Prop :=
  ∀ s t : State, step s = .next t → t.o ≠ s.o →
    s.skip = false ∧ ∃ op ∈ writingOps, ∃ a b, decodeWord (s.memRead s.pc) = op a b

/-- The write observer: an unsuppressed instruction that stores to memory adds exactly one report, of the address and
the word now there, when the address is in the range, both ends included, and none otherwise; JSR's push likewise. The
details are the spec's own choice (decision D21; log entry 21). -/
def Obligations.ObserverHearsEachStoreInRange : Prop :=
  ∀ s : State, s.skip = false →
    (∀ op ∈ writingOps, ∀ (a b : Operand) (x : Word), (resolve a s).1 = .mem x →
      ∃ t, exec (op a b) s = .next t ∧
        t.reports =
          if s.obsLo.toNat ≤ x.toNat ∧ x.toNat ≤ s.obsHi.toNat then s.reports ++ [⟨x, t.memRead x⟩] else s.reports) ∧
    (∀ a : Operand, let x := (resolve a s).2.sp - 1
      ∃ t, exec (.jsr a) s = .next t ∧
        t.reports =
          if s.obsLo.toNat ≤ x.toNat ∧ x.toNat ≤ s.obsHi.toNat then s.reports ++ [⟨x, t.memRead x⟩] else s.reports)

/-- The observer cannot change the engine: two states alike but for the observer's range and reports step to states
alike but for them (decision D21; log entry 21). -/
def Obligations.ObserverCannotChangeTheEngine : Prop :=
  ∀ s s' t : State, sameEngine s s' → step s = .next t → ∃ t', step s' = .next t' ∧ sameEngine t t'

/-- A suppressed step depends on nothing but PC, SP, and the word at PC: two such engines agree on where PC and SP end,
whatever their registers, O and the rest of memory hold.
That an illegal word faults suppressed too, without resolving its operand, is decision D16 (log entry 17). -/
def Obligations.SuppressedStepReadsNoData : Prop :=
  ∀ s s' t : State, s.skip = true → s'.skip = true → s'.faulted = false → s.pc = s'.pc → s.sp = s'.sp →
    s.memRead s.pc = s'.memRead s.pc → step s = .next t →
    ∃ t', step s' = .next t' ∧ t'.pc = t.pc ∧ t'.sp = t.sp ∧ t'.skip = t.skip ∧ t'.faulted = t.faulted

/-- A store to the address the next fetch reads is what that fetch reads: after an unsuppressed SET or ALU instruction
whose operand A is in memory at the next PC, the next step runs the word just stored, the low word of its result; and
after an unsuppressed JSR whose push lands at its target, the next step runs the return address just pushed. The results
follow decisions D3, D6, D7 and D12 (log entries 8, 13, 19), the push decision D15 (log entry 16).
The locations stored to follow decisions D13 and D14 (log entries 14, 15). -/
def Obligations.StoredWordIsTheNextFetched : Prop :=
  (∀ p ∈ storedValues, ∀ (a b : Operand) (s t : State), s.faulted = false → s.skip = false →
    exec (p.1 a b) s = .next t → (resolve a s).1 = .mem t.pc →
    step t = exec (decodeWord (p.2 (valA a b s) (valB a b s))) { t with pc := t.pc + 1 }) ∧
  (∀ (a : Operand) (s t : State), s.faulted = false → s.skip = false →
    exec (.jsr a) s = .next t → t.sp = t.pc →
    step t = exec (decodeWord (pcAfter a s.pc)) { t with pc := t.pc + 1 })

/-- `SET PUSH, b` then `SET r, POP` puts in `r` the value of `b` and gives SP back, for every source `b` that is not
itself a push or pop and whatever code stands between the two (PC is free). -/
def Obligations.PushThenPopRestoresStack : Prop :=
  ∀ (r : Reg) (b : Operand) (s : State) (pc' : Word), s.skip = false → b ≠ .pop → b ≠ .push →
    ∃ t u, exec (.set .push b) s = .next t ∧ exec (.set (.reg r) .pop) { t with pc := pc' } = .next u ∧
      u.reg r = valB .push b s ∧ u.sp = s.sp

/-- `JSR a` then, wherever the subroutine ends, `SET PC, POP` returns to the instruction after the JSR, with SP where
the JSR's operand left it (decision D15; log entry 16).
With the push code as JSR's operand it rests on decision D14 too (log entry 15). -/
def Obligations.CallThenReturn : Prop :=
  ∀ (a : Operand) (s : State) (pc' : Word), s.skip = false →
    ∃ t u, exec (.jsr a) s = .next t ∧ exec (.set .pcVal .pop) { t with pc := pc' } = .next u ∧
      u.pc = pcAfter a s.pc ∧ u.sp = spAfter a s.sp

/-! ## The driver -/

/-- LOAD puts word `i` of the image at address `i`, leaves every other word, every register and the reports as they
were, and refuses an image that does not fit (the refusal and the silence of the observer: U13, decision D21; log
entries 21, 23). -/
def Obligations.LoadPlacesTheImage : Prop :=
  ∀ (ws : List Word) (s : State),
    (ws.length ≤ 0x10000 →
      ∃ t, transact (.load ws) s = (.done, t) ∧
        (∀ x : Word, t.memRead x = (ws[x.toNat]?).getD (s.memRead x)) ∧
        t.regs = s.regs ∧ t.pc = s.pc ∧ t.sp = s.sp ∧ t.o = s.o ∧ t.skip = s.skip ∧ t.faulted = s.faulted ∧
        t.reports = s.reports) ∧
    (0x10000 < ws.length → transact (.load ws) s = (.imageTooLong, s))

/-- Only RESET clears the fault latch: it stays set through every other transaction. RESET of any engine, running or
faulted, puts every register, PC, SP, O, SKIP, the latch and all of memory at the reset state's (decisions D17, D18; log
entries 2, 3, 4, 18), and keeps the observer's range and the reports (the model's choice: log entry 21). -/
def Obligations.OnlyResetClearsTheLatch : Prop :=
  (∀ (x : Transaction) (s : State), s.faulted = true → x ≠ .reset → (transact x s).2.faulted = true) ∧
  (∀ s : State, ∃ t, transact .reset s = (.done, t) ∧ sameEngine t State.reset ∧ t.faulted = false ∧
    t.obsLo = s.obsLo ∧ t.obsHi = s.obsHi ∧ t.reports = s.reports)

/-- The driver's run of `k` steps, never stopped by its predicate, answers `ok` exactly when the engine is running and
`k` steps are safe; and whatever the predicate and the budget, a run that answers `ok` started from a running engine and
ends in one: a faulted state is never the final state of a successful run (decisions D17, D22; log entries 18, 23). -/
def Obligations.SuccessfulRunsNeverEndFaulted : Prop :=
  (∀ (k : Nat) (s : State), (runDriver (fun _ => false) k s).1 = .ok ↔ safeFor k s = true) ∧
  (∀ (stop : State → Bool) (k : Nat) (s t : State), runDriver stop k s = (.ok, t) → s.faulted = false ∧ t.faulted = false)

/-! ## The encoder's words, and the parameters -/

/-- The words the encoder makes of any basic instruction with numeric operands, or of JSR, decode to that instruction
with the operand codes and the trailing words the encoder chose, operand A's before operand B's, whatever words follow;
and codes and trailing words denote the operands as written. Folding follows decision D23 (log entry 24). -/
def Obligations.EncodedInstructionsDecode : Prop :=
  ∀ (xa xb : AsmOperand) (rest : List Word), numeric xa → numeric xb →
    ∃ (ca cb : Operand) (ta tb : List Emitted),
      encodeAsmOperand xa true = .ok (ca, ta) ∧ encodeAsmOperand xb true = .ok (cb, tb) ∧
      classOf ca (ta.map Emitted.word) = some xa ∧ classOf cb (tb.map Emitted.word) = some xb ∧
      (∀ op : BasicOp, ∃ out, encodeBasic config op xa xb = .ok out ∧
        decode (out.map Emitted.word ++ rest) = .ok (op.instr ca cb, (ta ++ tb).map Emitted.word, rest)) ∧
      (∃ out, encodeNonBasic config xa = .ok out ∧
        decode (out.map Emitted.word ++ rest) = .ok (.jsr ca, ta.map Emitted.word, rest))

/-- Under every opcode map and register map that are bijections, not only the defaults, decoding undoes encoding on
every well-formed instruction and encoding undoes decoding on every word. -/
def Obligations.EveryMapRoundTrips : Prop :=
  ∀ c : Config, c.opcodeMap.wf = true → c.regMap.wf = true →
    (∀ i : Instr, i.wf = true → decodeWordAs c (encodeWordAs c i) = i) ∧
    (∀ w : Word, encodeWordAs c (decodeWordAs c w) = w)
end

