-- ==== Sys2Proof/Machine/AnySetting.lean ====
section
/-! DEFINITION. The machine under ANY setting of the parameters of 00_scope.md R5. `exec` and `step` are this machine at
the defaults (Laws/AnySetting.lean). -/

namespace Sys2Proof.Machine

/-- What a basic instruction does under a setting (42_set_and_alu.md, 43_conditional.md). -/
def execBasicAs (c : Config) (op : BasicOp) (a b : Operand) (s : State) : Answer :=
  match op with
  | .set => writingSet c a b s
  | .add => writing c addResult a b s
  | .sub => writing c subResult a b s
  | .mul => writing c mulResult a b s
  | .div => writing c divResult a b s
  | .mod => writing c modResult a b s
  | .shl => writing c (shlResult c) a b s
  | .shr => writingShr c a b s
  | .and => writing c andResult a b s
  | .bor => writing c borResult a b s
  | .xor => writing c xorResult a b s
  | .ife => conditional c ifeHolds a b s
  | .ifn => conditional c ifnHolds a b s
  | .ifg => conditional c ifgHolds a b s
  | .ifb => conditional c ifbHolds a b s

/-- The dispatch of 41_step_engine.md R136 under a setting, on the fields of a word. -/
def execWordAs (c : Config) (w : Word) (s : State) : Answer :=
  if fieldO w = 0 then
    if fieldA w = 0x01 then execJsr (decodeOperandAs c.regMap (fieldB w)) s else illegalOpcode c s
  else
    execBasicAs c (c.opcodeMap.op (fieldO w)) (decodeOperandAs c.regMap (fieldA w))
      (decodeOperandAs c.regMap (fieldB w)) s

/-- `STEP` under a setting (41_step_engine.md R130). -/
def stepAs (c : Config) (s : State) : Answer :=
  if s.faulted then .fault .faultLatched else execWordAs c s.fetchWord s.afterFetch

end Sys2Proof.Machine
end

