-- ==== Sys2Proof/Laws/AnySetting.lean ====
section
/-! SUPPORT. The machine is the parametric one at the default settings. -/

namespace Sys2Proof.Machine

theorem execBasicAs_config (op : BasicOp) (a b : Operand) (s : State) :
    execBasicAs config op a b s = exec (op.instr a b) s := by
  cases op <;> rfl

theorem execWordAs_config (w : Word) (s : State) : execWordAs config w s = exec (decodeWord w) s := by
  rw [execWordAs, decodeWord, decodeWordAs]
  split
  · split <;> rfl
  · exact execBasicAs_config ..

theorem stepAs_config (s : State) : stepAs config s = step s := by
  rw [stepAs, step, execWordAs_config]

end Sys2Proof.Machine
end

