-- ==== Sys2Proof/Laws/Decode.lean ====
section
/-! SUPPORT. What the opcode and register maps do when they are bijections, and the shape of a decoded or encoded
word. -/

namespace Sys2Proof

theorem BasicOp.mem_all (op : BasicOp) : op ∈ BasicOp.all := by cases op <;> decide

theorem Reg.mem_all (r : Reg) : r ∈ Reg.all := by cases r <;> decide

/-- A bijective opcode map numbers every instruction in 0x1..0xF and takes the number back. -/
theorem OpcodeMap.op_number {m : OpcodeMap} (h : m.wf = true) (x : BasicOp) :
    1 ≤ m.number x ∧ m.number x ≤ 15 ∧ m.op (m.number x) = x := by
  simp only [OpcodeMap.wf, Bool.and_eq_true, List.all_eq_true] at h
  simpa [and_assoc] using h.1 x (BasicOp.mem_all x)

theorem OpcodeMap.number_op {m : OpcodeMap} (h : m.wf = true) {n : Nat} (lo : 1 ≤ n) (hi : n ≤ 15) :
    m.number (m.op n) = n := by
  simp only [OpcodeMap.wf, Bool.and_eq_true, List.all_eq_true] at h
  simpa using h.2 n (List.mem_range'_1.2 ⟨lo, by omega⟩)

/-- A bijective register map numbers every register in 0..7 and takes the number back. -/
theorem RegMap.reg_number {m : RegMap} (h : m.wf = true) (r : Reg) : m.number r < 8 ∧ m.reg (m.number r) = r := by
  simp only [RegMap.wf, Bool.and_eq_true, List.all_eq_true] at h
  simpa using h.1 r (Reg.mem_all r)

theorem RegMap.number_reg {m : RegMap} (h : m.wf = true) {n : Nat} (hi : n < 8) : m.number (m.reg n) = n := by
  simp only [RegMap.wf, Bool.and_eq_true, List.all_eq_true] at h
  simpa using h.2 n (List.mem_range.2 hi)

/-- The word of a basic instruction, whichever it is. -/
@[simp] theorem encodeWordAs_instr (c : Config) (op : BasicOp) (a b : Operand) :
    encodeWordAs c (op.instr a b) = packBasic c op a b := by
  cases op <;> rfl

@[simp] theorem BasicOp.instr_wf (op : BasicOp) (a b : Operand) : (op.instr a b).wf = true := by cases op <;> rfl

@[simp] theorem BasicOp.instr_operands (op : BasicOp) (a b : Operand) : (op.instr a b).operands = [a, b] := by
  cases op <;> rfl

/-- An instruction is basic, a subroutine call, or an illegal word. -/
theorem Instr.shape (i : Instr) :
    (∃ op a b, i = BasicOp.instr op a b) ∨ (∃ a, i = .jsr a) ∨ (∃ fa fb, i = .illegal fa fb) := by
  cases i with
  | jsr a => exact .inr (.inl ⟨a, rfl⟩)
  | illegal fa fb => exact .inr (.inr ⟨fa, fb, rfl⟩)
  | set a b => exact .inl ⟨.set, a, b, rfl⟩
  | add a b => exact .inl ⟨.add, a, b, rfl⟩
  | sub a b => exact .inl ⟨.sub, a, b, rfl⟩
  | mul a b => exact .inl ⟨.mul, a, b, rfl⟩
  | div a b => exact .inl ⟨.div, a, b, rfl⟩
  | mod a b => exact .inl ⟨.mod, a, b, rfl⟩
  | shl a b => exact .inl ⟨.shl, a, b, rfl⟩
  | shr a b => exact .inl ⟨.shr, a, b, rfl⟩
  | and a b => exact .inl ⟨.and, a, b, rfl⟩
  | bor a b => exact .inl ⟨.bor, a, b, rfl⟩
  | xor a b => exact .inl ⟨.xor, a, b, rfl⟩
  | ife a b => exact .inl ⟨.ife, a, b, rfl⟩
  | ifn a b => exact .inl ⟨.ifn, a, b, rfl⟩
  | ifg a b => exact .inl ⟨.ifg, a, b, rfl⟩
  | ifb a b => exact .inl ⟨.ifb, a, b, rfl⟩

/-! ## The machine's own maps -/

theorem encodeWord_instr (op : BasicOp) (a b : Operand) :
    encodeWord (op.instr a b) = packWord op.number (encodeOperand a) (encodeOperand b) := by
  cases op <;> rfl

theorem encodeWord_jsr (a : Operand) : encodeWord (.jsr a) = packWord 0x0 0x01 (encodeOperand a) := rfl

theorem encodeWord_illegal (fa fb : BitVec 6) : encodeWord (.illegal fa fb) = packWord 0x0 fa.toNat fb.toNat := rfl

theorem decodeWord_instr {w : Word} (h : fieldO w ≠ 0) :
    decodeWord w = (BasicOp.ofNumber (fieldO w)).instr (decodeOperand (fieldA w)) (decodeOperand (fieldB w)) := by
  rw [decodeWord, decodeWordAs, if_neg h]; rfl

theorem decodeWord_jsr {w : Word} (h : fieldO w = 0) (ha : fieldA w = 0x01) :
    decodeWord w = .jsr (decodeOperand (fieldB w)) := by
  rw [decodeWord, decodeWordAs, if_pos h, if_pos ha]; rfl

theorem decodeWord_illegal {w : Word} (h : fieldO w = 0) (ha : fieldA w ≠ 0x01) :
    decodeWord w = .illegal (BitVec.ofNat 6 (fieldA w)) (BitVec.ofNat 6 (fieldB w)) := by
  rw [decodeWord, decodeWordAs, if_pos h, if_neg ha]

end Sys2Proof
end

