-- ==== Sys2Proof/Laws/State.lean ====
section
/-! SUPPORT. What each named update of the state leaves in each field, and the register file's read-after-write laws. -/

namespace Sys2Proof.Machine

@[simp] theorem State.setReg_regs (s : State) (r : Reg) (v : Word) : (s.setReg r v).regs = s.regs.set r v := rfl
@[simp] theorem State.setReg_pc (s : State) (r : Reg) (v : Word) : (s.setReg r v).pc = s.pc := rfl
@[simp] theorem State.setReg_sp (s : State) (r : Reg) (v : Word) : (s.setReg r v).sp = s.sp := rfl
@[simp] theorem State.setReg_o (s : State) (r : Reg) (v : Word) : (s.setReg r v).o = s.o := rfl
@[simp] theorem State.setReg_skip (s : State) (r : Reg) (v : Word) : (s.setReg r v).skip = s.skip := rfl
@[simp] theorem State.setReg_faulted (s : State) (r : Reg) (v : Word) : (s.setReg r v).faulted = s.faulted := rfl
@[simp] theorem State.setReg_mem (s : State) (r : Reg) (v : Word) : (s.setReg r v).mem = s.mem := rfl
@[simp] theorem State.setReg_obsLo (s : State) (r : Reg) (v : Word) : (s.setReg r v).obsLo = s.obsLo := rfl
@[simp] theorem State.setReg_obsHi (s : State) (r : Reg) (v : Word) : (s.setReg r v).obsHi = s.obsHi := rfl
@[simp] theorem State.setReg_reports (s : State) (r : Reg) (v : Word) : (s.setReg r v).reports = s.reports := rfl

@[simp] theorem State.setPc_regs (s : State) (v : Word) : (s.setPc v).regs = s.regs := rfl
@[simp] theorem State.setPc_pc (s : State) (v : Word) : (s.setPc v).pc = v := rfl
@[simp] theorem State.setPc_sp (s : State) (v : Word) : (s.setPc v).sp = s.sp := rfl
@[simp] theorem State.setPc_o (s : State) (v : Word) : (s.setPc v).o = s.o := rfl
@[simp] theorem State.setPc_skip (s : State) (v : Word) : (s.setPc v).skip = s.skip := rfl
@[simp] theorem State.setPc_faulted (s : State) (v : Word) : (s.setPc v).faulted = s.faulted := rfl
@[simp] theorem State.setPc_mem (s : State) (v : Word) : (s.setPc v).mem = s.mem := rfl
@[simp] theorem State.setPc_obsLo (s : State) (v : Word) : (s.setPc v).obsLo = s.obsLo := rfl
@[simp] theorem State.setPc_obsHi (s : State) (v : Word) : (s.setPc v).obsHi = s.obsHi := rfl
@[simp] theorem State.setPc_reports (s : State) (v : Word) : (s.setPc v).reports = s.reports := rfl

@[simp] theorem State.setSp_regs (s : State) (v : Word) : (s.setSp v).regs = s.regs := rfl
@[simp] theorem State.setSp_pc (s : State) (v : Word) : (s.setSp v).pc = s.pc := rfl
@[simp] theorem State.setSp_sp (s : State) (v : Word) : (s.setSp v).sp = v := rfl
@[simp] theorem State.setSp_o (s : State) (v : Word) : (s.setSp v).o = s.o := rfl
@[simp] theorem State.setSp_skip (s : State) (v : Word) : (s.setSp v).skip = s.skip := rfl
@[simp] theorem State.setSp_faulted (s : State) (v : Word) : (s.setSp v).faulted = s.faulted := rfl
@[simp] theorem State.setSp_mem (s : State) (v : Word) : (s.setSp v).mem = s.mem := rfl
@[simp] theorem State.setSp_obsLo (s : State) (v : Word) : (s.setSp v).obsLo = s.obsLo := rfl
@[simp] theorem State.setSp_obsHi (s : State) (v : Word) : (s.setSp v).obsHi = s.obsHi := rfl
@[simp] theorem State.setSp_reports (s : State) (v : Word) : (s.setSp v).reports = s.reports := rfl

@[simp] theorem State.setO_regs (s : State) (v : Word) : (s.setO v).regs = s.regs := rfl
@[simp] theorem State.setO_pc (s : State) (v : Word) : (s.setO v).pc = s.pc := rfl
@[simp] theorem State.setO_sp (s : State) (v : Word) : (s.setO v).sp = s.sp := rfl
@[simp] theorem State.setO_o (s : State) (v : Word) : (s.setO v).o = v := rfl
@[simp] theorem State.setO_skip (s : State) (v : Word) : (s.setO v).skip = s.skip := rfl
@[simp] theorem State.setO_faulted (s : State) (v : Word) : (s.setO v).faulted = s.faulted := rfl
@[simp] theorem State.setO_mem (s : State) (v : Word) : (s.setO v).mem = s.mem := rfl
@[simp] theorem State.setO_obsLo (s : State) (v : Word) : (s.setO v).obsLo = s.obsLo := rfl
@[simp] theorem State.setO_obsHi (s : State) (v : Word) : (s.setO v).obsHi = s.obsHi := rfl
@[simp] theorem State.setO_reports (s : State) (v : Word) : (s.setO v).reports = s.reports := rfl

@[simp] theorem State.setSkip_regs (s : State) (b : Bool) : (s.setSkip b).regs = s.regs := rfl
@[simp] theorem State.setSkip_pc (s : State) (b : Bool) : (s.setSkip b).pc = s.pc := rfl
@[simp] theorem State.setSkip_sp (s : State) (b : Bool) : (s.setSkip b).sp = s.sp := rfl
@[simp] theorem State.setSkip_o (s : State) (b : Bool) : (s.setSkip b).o = s.o := rfl
@[simp] theorem State.setSkip_skip (s : State) (b : Bool) : (s.setSkip b).skip = b := rfl
@[simp] theorem State.setSkip_faulted (s : State) (b : Bool) : (s.setSkip b).faulted = s.faulted := rfl
@[simp] theorem State.setSkip_mem (s : State) (b : Bool) : (s.setSkip b).mem = s.mem := rfl
@[simp] theorem State.setSkip_obsLo (s : State) (b : Bool) : (s.setSkip b).obsLo = s.obsLo := rfl
@[simp] theorem State.setSkip_obsHi (s : State) (b : Bool) : (s.setSkip b).obsHi = s.obsHi := rfl
@[simp] theorem State.setSkip_reports (s : State) (b : Bool) : (s.setSkip b).reports = s.reports := rfl

@[simp] theorem State.memWrite_regs (s : State) (addr v : Word) : (s.memWrite addr v).regs = s.regs := rfl
@[simp] theorem State.memWrite_pc (s : State) (addr v : Word) : (s.memWrite addr v).pc = s.pc := rfl
@[simp] theorem State.memWrite_sp (s : State) (addr v : Word) : (s.memWrite addr v).sp = s.sp := rfl
@[simp] theorem State.memWrite_o (s : State) (addr v : Word) : (s.memWrite addr v).o = s.o := rfl
@[simp] theorem State.memWrite_skip (s : State) (addr v : Word) : (s.memWrite addr v).skip = s.skip := rfl
@[simp] theorem State.memWrite_faulted (s : State) (addr v : Word) : (s.memWrite addr v).faulted = s.faulted := rfl
@[simp] theorem State.memWrite_mem (s : State) (addr v : Word) : (s.memWrite addr v).mem = s.mem.write addr.toNat v := rfl
@[simp] theorem State.memWrite_obsLo (s : State) (addr v : Word) : (s.memWrite addr v).obsLo = s.obsLo := rfl
@[simp] theorem State.memWrite_obsHi (s : State) (addr v : Word) : (s.memWrite addr v).obsHi = s.obsHi := rfl
@[simp] theorem State.memWrite_reports (s : State) (addr v : Word) : (s.memWrite addr v).reports = if s.observed addr then s.reports ++ [{ addr := addr, value := v }] else s.reports := rfl

@[simp] theorem State.raiseIllegalOpcode_regs (s : State) : s.raiseIllegalOpcode.regs = s.regs := rfl
@[simp] theorem State.raiseIllegalOpcode_pc (s : State) : s.raiseIllegalOpcode.pc = s.pc := rfl
@[simp] theorem State.raiseIllegalOpcode_sp (s : State) : s.raiseIllegalOpcode.sp = s.sp := rfl
@[simp] theorem State.raiseIllegalOpcode_o (s : State) : s.raiseIllegalOpcode.o = s.o := rfl
@[simp] theorem State.raiseIllegalOpcode_skip (s : State) : s.raiseIllegalOpcode.skip = s.skip := rfl
@[simp] theorem State.raiseIllegalOpcode_faulted (s : State) : s.raiseIllegalOpcode.faulted = true := rfl
@[simp] theorem State.raiseIllegalOpcode_mem (s : State) : s.raiseIllegalOpcode.mem = s.mem := rfl
@[simp] theorem State.raiseIllegalOpcode_obsLo (s : State) : s.raiseIllegalOpcode.obsLo = s.obsLo := rfl
@[simp] theorem State.raiseIllegalOpcode_obsHi (s : State) : s.raiseIllegalOpcode.obsHi = s.obsHi := rfl
@[simp] theorem State.raiseIllegalOpcode_reports (s : State) : s.raiseIllegalOpcode.reports = s.reports := rfl

@[simp] theorem State.afterFetch_regs (s : State) : s.afterFetch.regs = s.regs := rfl
@[simp] theorem State.afterFetch_pc (s : State) : s.afterFetch.pc = s.pc + 1 := rfl
@[simp] theorem State.afterFetch_sp (s : State) : s.afterFetch.sp = s.sp := rfl
@[simp] theorem State.afterFetch_o (s : State) : s.afterFetch.o = s.o := rfl
@[simp] theorem State.afterFetch_skip (s : State) : s.afterFetch.skip = s.skip := rfl
@[simp] theorem State.afterFetch_faulted (s : State) : s.afterFetch.faulted = s.faulted := rfl
@[simp] theorem State.afterFetch_mem (s : State) : s.afterFetch.mem = s.mem := rfl
@[simp] theorem State.afterFetch_obsLo (s : State) : s.afterFetch.obsLo = s.obsLo := rfl
@[simp] theorem State.afterFetch_obsHi (s : State) : s.afterFetch.obsHi = s.obsHi := rfl
@[simp] theorem State.afterFetch_reports (s : State) : s.afterFetch.reports = s.reports := rfl

@[simp] theorem State.nextWordAddr_fst (s : State) : s.nextWordAddr.1 = s.pc := rfl
@[simp] theorem State.nextWordAddr_snd (s : State) : s.nextWordAddr.2 = s.setPc (s.pc + 1) := rfl

/-! ## Registers -/

@[simp] theorem Regs.get_set_same (g : Regs) (r : Reg) (v : Word) : (g.set r v).get r = v := by
  cases r <;> rfl

theorem Regs.get_set_other (g : Regs) {r q : Reg} (v : Word) (h : q ≠ r) : (g.set r v).get q = g.get q := by
  cases r <;> cases q <;> first | rfl | exact absurd rfl h

theorem Regs.get_set (g : Regs) (r q : Reg) (v : Word) : (g.set r v).get q = if q = r then v else g.get q := by
  by_cases h : q = r
  · subst h; simp
  · simp [h, Regs.get_set_other]

/-- Registers that read alike are the same register file. -/
theorem Regs.ext_get {g h : Regs} (e : ∀ r, g.get r = h.get r) : g = h := by
  cases g; cases h
  have := e .A; have := e .B; have := e .C; have := e .X
  have := e .Y; have := e .Z; have := e .I; have := e .J
  simp_all [Regs.get]

@[simp] theorem State.reg_setReg_same (s : State) (r : Reg) (v : Word) : (s.setReg r v).reg r = v :=
  Regs.get_set_same ..

theorem State.reg_setReg_other (s : State) {r q : Reg} (v : Word) (h : q ≠ r) : (s.setReg r v).reg q = s.reg q :=
  Regs.get_set_other _ v h

@[simp] theorem State.reg_setPc (s : State) (v : Word) (q : Reg) : (s.setPc v).reg q = s.reg q := rfl
@[simp] theorem State.reg_setSp (s : State) (v : Word) (q : Reg) : (s.setSp v).reg q = s.reg q := rfl
@[simp] theorem State.reg_setO (s : State) (v : Word) (q : Reg) : (s.setO v).reg q = s.reg q := rfl
@[simp] theorem State.reg_setSkip (s : State) (b : Bool) (q : Reg) : (s.setSkip b).reg q = s.reg q := rfl
@[simp] theorem State.reg_memWrite (s : State) (addr v : Word) (q : Reg) : (s.memWrite addr v).reg q = s.reg q := rfl
@[simp] theorem State.reg_raiseIllegalOpcode (s : State) (q : Reg) : s.raiseIllegalOpcode.reg q = s.reg q := rfl
@[simp] theorem State.reg_afterFetch (s : State) (q : Reg) : s.afterFetch.reg q = s.reg q := rfl

@[simp] theorem State.memRead_setReg (s : State) (r : Reg) (v : Word) (x : Word) : (s.setReg r v).memRead x = s.memRead x := rfl
@[simp] theorem State.memRead_setPc (s : State) (v : Word) (x : Word) : (s.setPc v).memRead x = s.memRead x := rfl
@[simp] theorem State.memRead_setSp (s : State) (v : Word) (x : Word) : (s.setSp v).memRead x = s.memRead x := rfl
@[simp] theorem State.memRead_setO (s : State) (v : Word) (x : Word) : (s.setO v).memRead x = s.memRead x := rfl
@[simp] theorem State.memRead_setSkip (s : State) (b : Bool) (x : Word) : (s.setSkip b).memRead x = s.memRead x := rfl
@[simp] theorem State.memRead_raiseIllegalOpcode (s : State) (x : Word) : s.raiseIllegalOpcode.memRead x = s.memRead x := rfl
@[simp] theorem State.memRead_afterFetch (s : State) (x : Word) : s.afterFetch.memRead x = s.memRead x := rfl

@[simp] theorem State.observed_setReg (s : State) (r : Reg) (v : Word) (x : Word) : (s.setReg r v).observed x = s.observed x := rfl
@[simp] theorem State.observed_setPc (s : State) (v : Word) (x : Word) : (s.setPc v).observed x = s.observed x := rfl
@[simp] theorem State.observed_setSp (s : State) (v : Word) (x : Word) : (s.setSp v).observed x = s.observed x := rfl
@[simp] theorem State.observed_setO (s : State) (v : Word) (x : Word) : (s.setO v).observed x = s.observed x := rfl
@[simp] theorem State.observed_setSkip (s : State) (b : Bool) (x : Word) : (s.setSkip b).observed x = s.observed x := rfl
@[simp] theorem State.observed_memWrite (s : State) (addr v : Word) (x : Word) : (s.memWrite addr v).observed x = s.observed x := rfl
@[simp] theorem State.observed_raiseIllegalOpcode (s : State) (x : Word) : s.raiseIllegalOpcode.observed x = s.observed x := rfl
@[simp] theorem State.observed_afterFetch (s : State) (x : Word) : s.afterFetch.observed x = s.observed x := rfl

end Sys2Proof.Machine
end

