-- ==== Sys2Proof/Laws/Memory.lean ====
section
/-! SUPPORT. Memory: read after write, and every memory operation keeps the canonical form. -/

namespace Sys2Proof.Machine

@[simp] theorem Memory.read_nil (addr : Nat) : Memory.read [] addr = Memory.initial addr := rfl

theorem Memory.read_erase (m : Memory) (addr x : Nat) :
    (m.erase addr).read x = if x = addr then Memory.initial addr else m.read x := by
  induction m with
  | nil => by_cases h : x = addr <;> simp [Memory.erase, h]
  | cons e m ih =>
    obtain ⟨k, v⟩ := e
    by_cases hk : k = addr
    · by_cases hx : x = addr
      · subst hx
        simpa [Memory.erase, hk] using ih
      · have : ¬ addr = x := fun h => hx h.symm
        simp [Memory.erase, Memory.read, hk, ih, hx, this]
    · by_cases hx : x = addr
      · subst hx
        simpa [Memory.erase, Memory.read, hk] using ih
      · simp [Memory.erase, Memory.read, hk, ih, hx]

theorem Memory.read_insert (m : Memory) (addr x : Nat) (v : Word) :
    (m.insert addr v).read x = if x = addr then v else m.read x := by
  induction m with
  | nil =>
    by_cases h : x = addr
    · simp [Memory.insert, Memory.read, h]
    · have : ¬ addr = x := fun e => h e.symm
      simp [Memory.insert, Memory.read, h, this]
  | cons e m ih =>
    obtain ⟨k, u⟩ := e
    by_cases h1 : addr < k
    · by_cases h : x = addr
      · simp [Memory.insert, Memory.read, h1, h]
      · have : ¬ addr = x := fun e => h e.symm
        simp [Memory.insert, Memory.read, h1, h, this]
    · by_cases h2 : k = addr
      · by_cases h : x = addr
        · simp [Memory.insert, Memory.read, h2, h]
        · have : ¬ addr = x := fun e => h e.symm
          simp [Memory.insert, Memory.read, h2, h, this]
      · by_cases h : x = addr
        · subst h
          simpa [Memory.insert, Memory.read, h1, h2] using ih
        · simp [Memory.insert, Memory.read, h1, h2, h, ih]

/-- A read after a write gives the word written at its address, and what was there anywhere else. -/
theorem Memory.read_write (m : Memory) (addr x : Nat) (v : Word) :
    (m.write addr v).read x = if x = addr then v else m.read x := by
  unfold Memory.write
  split
  · rename_i h; rw [Memory.read_erase, h]
  · rw [Memory.read_insert]

@[simp] theorem Memory.read_write_same (m : Memory) (addr : Nat) (v : Word) : (m.write addr v).read addr = v := by
  simp [Memory.read_write]

theorem Memory.read_write_other (m : Memory) {addr x : Nat} (v : Word) (h : x ≠ addr) :
    (m.write addr v).read x = m.read x := by
  simp [Memory.read_write, h]

@[simp] theorem State.memRead_memWrite_same (s : State) (addr v : Word) : (s.memWrite addr v).memRead addr = v := by
  simp [State.memRead]

theorem State.memRead_memWrite_other (s : State) {addr x : Word} (v : Word) (h : x ≠ addr) :
    (s.memWrite addr v).memRead x = s.memRead x := by
  have : x.toNat ≠ addr.toNat := fun e => h (BitVec.eq_of_toNat_eq e)
  simp [State.memRead, Memory.read_write_other _ _ this]

/-! ## The canonical form -/

theorem Memory.wfFrom_cons {lo k : Nat} {v : Word} {m : Memory} :
    Memory.wfFrom lo ((k, v) :: m) = true ↔
      lo ≤ k ∧ k < 0x10000 ∧ v ≠ Memory.initial k ∧ Memory.wfFrom (k + 1) m = true := by
  simp [Memory.wfFrom, and_assoc]

theorem Memory.wfFrom_mono {lo hi : Nat} {m : Memory} (h : lo ≤ hi) (w : Memory.wfFrom hi m = true) :
    Memory.wfFrom lo m = true := by
  cases m with
  | nil => rfl
  | cons e m =>
    obtain ⟨k, v⟩ := e
    rw [Memory.wfFrom_cons] at w ⊢
    exact ⟨by omega, w.2⟩

theorem Memory.wfFrom_erase {lo : Nat} {m : Memory} (addr : Nat) (w : Memory.wfFrom lo m = true) :
    Memory.wfFrom lo (m.erase addr) = true := by
  induction m generalizing lo with
  | nil => rfl
  | cons e m ih =>
    obtain ⟨k, v⟩ := e
    rw [Memory.wfFrom_cons] at w
    by_cases h : k = addr
    · simp only [Memory.erase, h, ↓reduceIte]
      exact ih (Memory.wfFrom_mono (by omega) w.2.2.2)
    · simp only [Memory.erase, h, ↓reduceIte, Memory.wfFrom_cons]
      exact ⟨w.1, w.2.1, w.2.2.1, ih w.2.2.2⟩

theorem Memory.wfFrom_insert {lo addr : Nat} {m : Memory} {v : Word} (hlo : lo ≤ addr) (ha : addr < 0x10000)
    (hv : v ≠ Memory.initial addr) (w : Memory.wfFrom lo m = true) : Memory.wfFrom lo (m.insert addr v) = true := by
  induction m generalizing lo with
  | nil => exact Memory.wfFrom_cons.mpr ⟨hlo, ha, hv, rfl⟩
  | cons e m ih =>
    obtain ⟨k, u⟩ := e
    rw [Memory.wfFrom_cons] at w
    by_cases h1 : addr < k
    · simp only [Memory.insert, h1, ↓reduceIte, Memory.wfFrom_cons]
      exact ⟨hlo, ha, hv, by omega, w.2⟩
    · by_cases h2 : k = addr
      · subst h2
        simp only [Memory.insert, h1, ↓reduceIte, Memory.wfFrom_cons]
        exact ⟨hlo, ha, hv, w.2.2.2⟩
      · simp only [Memory.insert, h1, h2, ↓reduceIte, Memory.wfFrom_cons]
        exact ⟨w.1, w.2.1, w.2.2.1, ih (by omega) w.2.2.2⟩

/-- A write keeps the canonical form. -/
theorem Memory.write_wf {m : Memory} {addr : Nat} (v : Word) (ha : addr < 0x10000) (w : m.wf = true) :
    (m.write addr v).wf = true := by
  unfold Memory.write
  split
  · exact Memory.wfFrom_erase addr w
  · rename_i h; exact Memory.wfFrom_insert (Nat.zero_le _) ha h w

/-- An image load keeps the canonical form. -/
theorem Memory.load_wf {m : Memory} {addr : Nat} {ws : List Word} (h : addr + ws.length ≤ 0x10000) (w : m.wf = true) :
    (m.load addr ws).wf = true := by
  induction ws generalizing m addr with
  | nil => exact w
  | cons x ws ih =>
    simp only [List.length_cons] at h
    exact ih (by omega) (Memory.write_wf x (by omega) w)

/-- `MemWrite` keeps the canonical form. -/
theorem State.memWrite_wf {s : State} (addr v : Word) (w : s.mem.wf = true) : (s.memWrite addr v).mem.wf = true :=
  Memory.write_wf v addr.isLt w

/-- Two canonical memories that read alike at every address are the same list. -/
theorem Memory.ext_wfFrom {lo : Nat} {m n : Memory} (wm : Memory.wfFrom lo m = true) (wn : Memory.wfFrom lo n = true)
    (h : ∀ x, m.read x = n.read x) : m = n := by
  have below : ∀ {lo : Nat} {m : Memory} {x : Nat}, Memory.wfFrom lo m = true → x < lo → m.read x = Memory.initial x := by
    intro lo m
    induction m generalizing lo with
    | nil => intros; rfl
    | cons e m ih =>
      obtain ⟨k, v⟩ := e
      intro x w hx
      rw [Memory.wfFrom_cons] at w
      have : k ≠ x := by omega
      simp only [Memory.read, this, ↓reduceIte]
      exact ih w.2.2.2 (by omega)
  induction m generalizing lo n with
  | nil =>
    cases n with
    | nil => rfl
    | cons e n =>
      obtain ⟨k, v⟩ := e
      rw [Memory.wfFrom_cons] at wn
      exact absurd (by simpa [Memory.read] using (h k).symm) wn.2.2.1
  | cons e m ih =>
    obtain ⟨k, v⟩ := e
    cases n with
    | nil =>
      rw [Memory.wfFrom_cons] at wm
      exact absurd (by simpa [Memory.read] using h k) wm.2.2.1
    | cons f n =>
      obtain ⟨j, u⟩ := f
      rw [Memory.wfFrom_cons] at wm wn
      have hkj : k = j := by
        rcases Nat.lt_trichotomy k j with lt | eq | gt
        · have := h k
          have hne : j ≠ k := by omega
          simp only [Memory.read, ↓reduceIte, hne] at this
          exact absurd (this.trans (below wn.2.2.2 (by omega))) wm.2.2.1
        · exact eq
        · have := h j
          have hne : k ≠ j := by omega
          simp only [Memory.read, ↓reduceIte, hne] at this
          exact absurd (this.symm.trans (below wm.2.2.2 (by omega))) wn.2.2.1
      subst hkj
      have hvu : v = u := by simpa [Memory.read] using h k
      subst hvu
      congr 1
      refine ih wm.2.2.2 wn.2.2.2 fun x => ?_
      by_cases hx : k = x
      · subst hx
        rw [below wm.2.2.2 (by omega), below wn.2.2.2 (by omega)]
      · simpa [Memory.read, hx] using h x

/-! ## The memory of a function -/

theorem Memory.tabulateFrom_wf (f : Nat → Word) {addr n lo : Nat} (h : addr + n ≤ 0x10000) (hlo : lo ≤ addr) :
    Memory.wfFrom lo (Memory.tabulateFrom f addr n) = true := by
  induction n generalizing addr lo with
  | zero => rfl
  | succ n ih =>
    unfold Memory.tabulateFrom
    split
    · exact ih (by omega) (by omega)
    · rename_i hne
      simp only [Memory.wfFrom, Bool.and_eq_true, decide_eq_true_eq]
      exact ⟨⟨⟨hlo, by omega⟩, hne⟩, ih (by omega) (Nat.le_refl _)⟩

/-- Every function is a `MEM_INIT` in canonical form. -/
theorem Memory.tabulate_wf (f : Nat → Word) : (Memory.tabulate f).wf = true :=
  Memory.tabulateFrom_wf f (Nat.le_refl _) (Nat.le_refl _)

theorem Memory.read_tabulateFrom (f : Nat → Word) (addr n x : Nat) :
    (Memory.tabulateFrom f addr n).read x = if addr ≤ x ∧ x < addr + n then f x else Memory.initial x := by
  induction n generalizing addr with
  | zero => rw [if_neg (by omega)]; rfl
  | succ n ih =>
    unfold Memory.tabulateFrom
    split
    · rename_i he
      rw [ih]
      by_cases hx : x = addr
      · subst hx
        rw [if_neg (by omega), if_pos (by omega), he]
      · exact if_congr (by omega) rfl rfl
    · rw [Memory.read, ih]
      by_cases hx : addr = x
      · subst hx
        rw [if_pos rfl, if_pos (by omega)]
      · rw [if_neg hx]
        exact if_congr (by omega) rfl rfl

/-- The memory of a function holds the function's word at every address. -/
theorem Memory.read_tabulate (f : Nat → Word) (a : Word) : (Memory.tabulate f).read a.toNat = f a.toNat := by
  rw [Memory.tabulate, Memory.read_tabulateFrom, if_pos]
  exact ⟨Nat.zero_le _, by simpa using a.isLt⟩

end Sys2Proof.Machine
end

