-- ==== Sys2Proof/Laws/Operands.lean ====
section
/-! SUPPORT. What resolving, reading and writing a location can do, said once. -/

namespace Sys2Proof.Machine

/-- Resolution moves PC and SP and nothing else (40_operand_resolver.md R100). -/
theorem resolve_moves (x : Operand) (s : State) :
    (resolve x s).2 = (s.setPc (resolve x s).2.pc).setSp (resolve x s).2.sp := by
  cases x <;> rfl

@[simp] theorem resolve_regs (x : Operand) (s : State) : (resolve x s).2.regs = s.regs := by cases x <;> rfl
@[simp] theorem resolve_o (x : Operand) (s : State) : (resolve x s).2.o = s.o := by cases x <;> rfl
@[simp] theorem resolve_skip (x : Operand) (s : State) : (resolve x s).2.skip = s.skip := by cases x <;> rfl
@[simp] theorem resolve_faulted (x : Operand) (s : State) : (resolve x s).2.faulted = s.faulted := by cases x <;> rfl
@[simp] theorem resolve_mem (x : Operand) (s : State) : (resolve x s).2.mem = s.mem := by cases x <;> rfl
@[simp] theorem resolve_obsLo (x : Operand) (s : State) : (resolve x s).2.obsLo = s.obsLo := by cases x <;> rfl
@[simp] theorem resolve_obsHi (x : Operand) (s : State) : (resolve x s).2.obsHi = s.obsHi := by cases x <;> rfl
@[simp] theorem resolve_reports (x : Operand) (s : State) : (resolve x s).2.reports = s.reports := by cases x <;> rfl

@[simp] theorem resolve_reg (x : Operand) (s : State) (r : Reg) : (resolve x s).2.reg r = s.reg r := by
  simp [State.reg]

@[simp] theorem resolve_memRead (x : Operand) (s : State) (a : Word) : (resolve x s).2.memRead a = s.memRead a := by
  simp [State.memRead]

/-- What a store to a location can do: one of six things (00_scope.md R8; 40_operand_resolver.md R118). -/
theorem State.writeLoc_cases (s : State) (loc : Loc) (v : Word) :
    (∃ r, loc = .reg r ∧ s.writeLoc loc v = s.setReg r v) ∨
    (loc = .sp ∧ s.writeLoc loc v = s.setSp v) ∨
    (loc = .pc ∧ s.writeLoc loc v = s.setPc v) ∨
    (loc = .o ∧ s.writeLoc loc v = s.setO v) ∨
    (∃ a, loc = .mem a ∧ s.writeLoc loc v = s.memWrite a v) ∨
    (∃ k, loc = .lit k ∧ s.writeLoc loc v = s) := by
  cases loc with
  | reg r => exact .inl ⟨r, rfl, rfl⟩
  | sp => exact .inr (.inl ⟨rfl, rfl⟩)
  | pc => exact .inr (.inr (.inl ⟨rfl, rfl⟩))
  | o => exact .inr (.inr (.inr (.inl ⟨rfl, rfl⟩)))
  | mem a => exact .inr (.inr (.inr (.inr (.inl ⟨a, rfl, rfl⟩))))
  | lit k => exact .inr (.inr (.inr (.inr (.inr ⟨k, rfl, rfl⟩))))

/-- Reading back a writable location gives the word stored there. -/
theorem State.readLoc_writeLoc_same (s : State) {loc : Loc} (v : Word) (h : loc.writable = true) :
    (s.writeLoc loc v).readLoc loc = v := by
  cases loc with
  | lit k => cases h
  | mem a => exact State.memRead_memWrite_same s a v
  | reg r => exact State.reg_setReg_same s r v
  | sp => rfl
  | pc => rfl
  | o => rfl

@[simp] theorem State.writeLoc_skip (s : State) (loc : Loc) (v : Word) : (s.writeLoc loc v).skip = s.skip := by
  cases loc <;> rfl

@[simp] theorem State.writeLoc_faulted (s : State) (loc : Loc) (v : Word) : (s.writeLoc loc v).faulted = s.faulted := by
  cases loc <;> rfl

@[simp] theorem State.writeLoc_obsLo (s : State) (loc : Loc) (v : Word) : (s.writeLoc loc v).obsLo = s.obsLo := by
  cases loc <;> rfl

@[simp] theorem State.writeLoc_obsHi (s : State) (loc : Loc) (v : Word) : (s.writeLoc loc v).obsHi = s.obsHi := by
  cases loc <;> rfl

theorem State.writeLoc_wf {s : State} (loc : Loc) (v : Word) (w : s.mem.wf = true) :
    (s.writeLoc loc v).mem.wf = true := by
  cases loc with
  | mem a => exact State.memWrite_wf a v w
  | reg r => exact w
  | sp => exact w
  | pc => exact w
  | o => exact w
  | lit k => exact w

/-- `resolveBoth` resolves A, then B in the state A left (40_operand_resolver.md R115). -/
theorem resolveBoth_locA (c : Config) (a b : Operand) (s : State) : (resolveBoth c a b s).locA = (resolve a s).1 := rfl

theorem resolveBoth_locB (c : Config) (a b : Operand) (s : State) :
    (resolveBoth c a b s).locB = (resolve b (resolve a s).2).1 := rfl

theorem resolveBoth_after (c : Config) (a b : Operand) (s : State) :
    (resolveBoth c a b s).after = (resolve b (resolve a s).2).2 := rfl

theorem resolveBoth_valB (c : Config) (a b : Operand) (s : State) :
    (resolveBoth c a b s).valB = (resolveBoth c a b s).after.readLoc (resolveBoth c a b s).locB := rfl

/-- With the default timing A's value is read in the state both operands left (41_step_engine.md R135). -/
theorem resolveBoth_valA {c : Config} (h : c.operandReadTiming = .afterBoth) (a b : Operand) (s : State) :
    (resolveBoth c a b s).valA = (resolveBoth c a b s).after.readLoc (resolveBoth c a b s).locA := by
  simp [resolveBoth, h]

@[simp] theorem resolveBoth_skip (c : Config) (a b : Operand) (s : State) :
    (resolveBoth c a b s).after.skip = s.skip := by
  simp [resolveBoth]

end Sys2Proof.Machine
end

