-- ==== Sys2Proof/Laws/Exec.lean ====
section
/-! SUPPORT. What the shared operations of the instructions can do, said once: a proof about an instruction cites
these and unfolds none of them. -/

namespace Sys2Proof.Machine

/-! ## The parameters' settings (00_scope.md R5, defaults) -/

theorem config_wf : config.wf = true := by decide

@[simp] theorem config_shiftCountMask : config.shiftCountMask = none := rfl
@[simp] theorem config_shrORule : config.shrORule = .uniform := rfl
@[simp] theorem config_setWritesO : config.setWritesO = true := rfl
@[simp] theorem config_oWriteNeedsWritableDest : config.oWriteNeedsWritableDest = false := rfl
@[simp] theorem config_operandReadTiming : config.operandReadTiming = .afterBoth := rfl
@[simp] theorem config_faultWhenSuppressed : config.faultWhenSuppressed = true := rfl

/-! ## The common path of the basic instructions -/

/-- A basic instruction always answers a next state: the suppressed one, or its effect's. -/
theorem basic_eq (c : Config) (a b : Operand) (effect : Resolved → State) (s : State) :
    basic c a b effect s =
      .next (if s.skip then (resolveBoth c a b s).after.setSkip false else effect (resolveBoth c a b s)) := by
  simp only [basic, resolveBoth_skip]
  cases s.skip <;> rfl

theorem basic_suppressed (c : Config) (a b : Operand) (effect : Resolved → State) {s : State} (h : s.skip = true) :
    basic c a b effect s = .next ((resolve b (resolve a s).2).2.setSkip false) := by
  simp [basic_eq, h, resolveBoth_after]

theorem basic_runs (c : Config) (a b : Operand) (effect : Resolved → State) {s : State} (h : s.skip = false) :
    basic c a b effect s = .next (effect (resolveBoth c a b s)) := by
  simp [basic_eq, h]

theorem writeO_config (loc : Loc) (v : Word) (s : State) : writeO config loc v s = s.setO v := rfl

/-- At the defaults the write-back is the store, then O (42_set_and_alu.md R150). -/
theorem writeBack_config (loc : Loc) (value overflow : Word) (s : State) :
    writeBack config loc value overflow s = (s.writeLoc loc value).setO overflow := rfl

theorem writing_runs (result : Word → Word → Int) (a b : Operand) {s : State} (h : s.skip = false) :
    writing config result a b s =
      .next (((resolveBoth config a b s).after.writeLoc (resolveBoth config a b s).locA
        (lowWord (result (resolveBoth config a b s).valA (resolveBoth config a b s).valB))).setO
          (highWord (result (resolveBoth config a b s).valA (resolveBoth config a b s).valB))) :=
  basic_runs _ _ _ _ h

theorem conditional_runs (holds : Word → Word → Bool) (a b : Operand) {s : State} (h : s.skip = false) :
    conditional config holds a b s =
      .next (if holds (resolveBoth config a b s).valA (resolveBoth config a b s).valB
        then (resolveBoth config a b s).after else (resolveBoth config a b s).after.setSkip true) :=
  basic_runs _ _ _ _ h

/-- A suppressed instruction of the SET and ALU family, or a conditional, resolves both operands and clears SKIP
(41_step_engine.md R134). -/
theorem writing_suppressed (result : Word → Word → Int) (a b : Operand) {s : State} (h : s.skip = true) :
    writing config result a b s = .next ((resolve b (resolve a s).2).2.setSkip false) :=
  basic_suppressed _ _ _ _ h

theorem writingShr_suppressed (a b : Operand) {s : State} (h : s.skip = true) :
    writingShr config a b s = .next ((resolve b (resolve a s).2).2.setSkip false) :=
  basic_suppressed _ _ _ _ h

theorem conditional_suppressed (holds : Word → Word → Bool) (a b : Operand) {s : State} (h : s.skip = true) :
    conditional config holds a b s = .next ((resolve b (resolve a s).2).2.setSkip false) :=
  basic_suppressed _ _ _ _ h

/-- At the defaults SET is the uniform write-back of `b`, and SHR that of its shifted word (decisions D8, D9). -/
theorem writingSet_config (a b : Operand) (s : State) : writingSet config a b s = writing config setResult a b s := rfl

theorem writingShr_config (a b : Operand) (s : State) :
    writingShr config a b s = writing config (shrResult config) a b s := rfl

/-- The subroutine call always answers a next state. -/
theorem execJsr_eq (a : Operand) (s : State) :
    execJsr a s =
      .next (if s.skip then (resolve a s).2.setSkip false
        else ((resolve a s).2.pushWord (resolve a s).2.pc).setPc ((resolve a s).2.readLoc (resolve a s).1)) := by
  simp only [execJsr, resolve_skip]
  cases s.skip <;> rfl

theorem execIllegal_eq (fa fb : BitVec 6) (s : State) : execIllegal fa fb s = .next s.raiseIllegalOpcode := rfl

end Sys2Proof.Machine
end

