-- ==== Sys2Proof/Laws/Flags.lean ====
section
/-! SUPPORT. The word stored and the word O receives, for a result that is a natural number (every instruction's but
SUB's). -/

namespace Sys2Proof.Machine

theorem lowWord_natCast (n : Nat) : lowWord (n : Int) = BitVec.ofNat 16 n := by
  rw [lowWord, BitVec.ofInt_natCast]

theorem highWord_natCast (n : Nat) : highWord (n : Int) = BitVec.ofNat 16 (n / 65536) := by
  have : ((n : Int) / 65536) = ((n / 65536 : Nat) : Int) := by omega
  rw [highWord, this, BitVec.ofInt_natCast]

/-- A result that fits a word leaves 0 in O (42_set_and_alu.md R162). -/
theorem highWord_of_fits {n : Nat} (h : n < 65536) : highWord (n : Int) = 0 := by
  rw [highWord_natCast, Nat.div_eq_of_lt h]
  rfl

/-- A borrow leaves 0xFFFF in O (42_set_and_alu.md R153). -/
theorem highWord_of_borrow {r : Int} (lo : -65536 ≤ r) (hi : r < 0) : highWord r = 0xFFFF := by
  have : r / 65536 = -1 := by omega
  rw [highWord, this]
  rfl

end Sys2Proof.Machine
end

