-- ==== Sys2Proof/Laws/PerInstr.lean ====
section
/-! SUPPORT. Statements for all instructions, one lemma per constructor. -/

namespace Sys2Proof.Laws

/-- The number in the low nibble of an instruction's word (30_encoding.md R57, R58; decision D1). -/
def opcodeNumber : Instr → Nat
  | .set _ _ => 1
  | .add _ _ => 2
  | .sub _ _ => 3
  | .mul _ _ => 4
  | .div _ _ => 5
  | .mod _ _ => 6
  | .shl _ _ => 7
  | .shr _ _ => 8
  | .and _ _ => 9
  | .bor _ _ => 10
  | .xor _ _ => 11
  | .ife _ _ => 12
  | .ifn _ _ => 13
  | .ifg _ _ => 14
  | .ifb _ _ => 15
  | .jsr _ => 0
  | .illegal _ _ => 0

/-- The low nibble of a packed word is its opcode field (30_encoding.md R50). -/
theorem fieldO_packWord {fo : Nat} (fa fb : Nat) (h : fo < 16) : fieldO (packWord fo fa fb) = fo := by
  simp only [fieldO, packWord, BitVec.toNat_ofNat]
  omega

/-- The middle field of a packed word is its operand A or sub-opcode field. -/
theorem fieldA_packWord {fo fa : Nat} (fb : Nat) (h : fo < 16) (ha : fa < 64) : fieldA (packWord fo fa fb) = fa := by
  simp only [fieldA, packWord, BitVec.toNat_ofNat]
  omega

/-- The top field of a packed word is its operand B field. -/
theorem fieldB_packWord {fo fa fb : Nat} (h : fo < 16) (ha : fa < 64) (hb : fb < 64) :
    fieldB (packWord fo fa fb) = fb := by
  simp only [fieldB, packWord, BitVec.toNat_ofNat]
  omega

/-- The encoded word's low nibble is the instruction's opcode number. -/
def Fields.Statement (i : Instr) : Prop := fieldO (encodeWord i) = opcodeNumber i

theorem Fields.set (a b : Operand) : Fields.Statement (.set a b) := fieldO_packWord _ _ (by decide)
theorem Fields.add (a b : Operand) : Fields.Statement (.add a b) := fieldO_packWord _ _ (by decide)
theorem Fields.sub (a b : Operand) : Fields.Statement (.sub a b) := fieldO_packWord _ _ (by decide)
theorem Fields.mul (a b : Operand) : Fields.Statement (.mul a b) := fieldO_packWord _ _ (by decide)
theorem Fields.div (a b : Operand) : Fields.Statement (.div a b) := fieldO_packWord _ _ (by decide)
theorem Fields.mod (a b : Operand) : Fields.Statement (.mod a b) := fieldO_packWord _ _ (by decide)
theorem Fields.shl (a b : Operand) : Fields.Statement (.shl a b) := fieldO_packWord _ _ (by decide)
theorem Fields.shr (a b : Operand) : Fields.Statement (.shr a b) := fieldO_packWord _ _ (by decide)
theorem Fields.and (a b : Operand) : Fields.Statement (.and a b) := fieldO_packWord _ _ (by decide)
theorem Fields.bor (a b : Operand) : Fields.Statement (.bor a b) := fieldO_packWord _ _ (by decide)
theorem Fields.xor (a b : Operand) : Fields.Statement (.xor a b) := fieldO_packWord _ _ (by decide)
theorem Fields.ife (a b : Operand) : Fields.Statement (.ife a b) := fieldO_packWord _ _ (by decide)
theorem Fields.ifn (a b : Operand) : Fields.Statement (.ifn a b) := fieldO_packWord _ _ (by decide)
theorem Fields.ifg (a b : Operand) : Fields.Statement (.ifg a b) := fieldO_packWord _ _ (by decide)
theorem Fields.ifb (a b : Operand) : Fields.Statement (.ifb a b) := fieldO_packWord _ _ (by decide)
theorem Fields.jsr (a : Operand) : Fields.Statement (.jsr a) := fieldO_packWord _ _ (by decide)
theorem Fields.illegal (fa fb : BitVec 6) : Fields.Statement (.illegal fa fb) := fieldO_packWord _ _ (by decide)

end Sys2Proof.Laws
end

