-- ==== Sys2Proof/Laws/Step.lean ====
section
/-! SUPPORT. A step, case by case. -/

namespace Sys2Proof.Machine

theorem step_latched {s : State} (h : s.faulted = true) : step s = .fault .faultLatched := by
  simp [step, h]

theorem step_runs {s : State} (h : s.faulted = false) : step s = exec (decodeWord s.fetchWord) s.afterFetch := by
  simp [step, h]

theorem fetchWord_eq (s : State) : s.fetchWord = s.memRead s.pc := rfl

theorem afterFetch_eq (s : State) : s.afterFetch = s.setPc (s.pc + 1) := rfl

/-- What a step that answers a next state did: it ran the decoded instruction of an engine that had not faulted. -/
theorem step_next {s t : State} (h : step s = .next t) :
    s.faulted = false ∧ exec (decodeWord (s.memRead s.pc)) (s.setPc (s.pc + 1)) = .next t := by
  cases hf : s.faulted with
  | true => rw [step_latched hf] at h; cases h
  | false => rw [step_runs hf] at h; exact ⟨rfl, h⟩

end Sys2Proof.Machine
end

