-- ==== Sys2Proof/Machine/Assembler.lean ====
section
/-! DEFINITION. The text around the Instruction Encoder (30_encoding.md section 8): the Line Normalizer, the spellings of
operands, and the two passes. It is software around the block, which a model need not hold (00_scope.md R3); it is here
so that every error of R75 has a place. What the spec leaves open of the text is log entries 25 and 27. -/

namespace Sys2Proof.Machine

/-! ## Characters to tokens (R80, R84) -/

/-- A piece of a line. -/
inductive Token where
  /-- Characters between separators. -/
  | word (text : List Char)
  /-- A double-quoted string, its escapes decoded to character codes. -/
  | str (codes : List Word)
  /-- Characters that a colon ends. -/
  | label (text : List Char)
  deriving DecidableEq, Repr

/-- What stands between operands: "whitespace/commas" (R80). Blanks and commas count alike, and any run of them is one
separator, wherever it stands: a comma after the mnemonic, two in a row, or one at either end of a line changes nothing
(DESIGN CHOICE, unsafe for the text only: log entry 27). -/
def isSeparator (c : Char) : Bool := c.isWhitespace || c == ','

/-- The code an escaped character stands for (R84; the codes from general knowledge). -/
def escapeCode (c : Char) : Option Word :=
  if c = 'n' then some 10
  else if c = 'r' then some 13
  else if c = 'a' then some 7
  else if c = '\\' then some 92
  else if c = '"' then some 34
  else if c = '0' then some 0
  else none

/-- The code of an ordinary character: its ASCII code (R84). -/
def charCode (c : Char) : Option Word := if c.toNat < 128 then some (BitVec.ofNat 16 c.toNat) else none

/-- Where in a line the reading stands, with what is collected so far, last first. -/
inductive Scan where
  /-- Outside a string. -/
  | plain (text : List Char)
  /-- Inside a string. -/
  | inString (codes : List Word)
  /-- Inside a string, after a backslash. -/
  | escape (codes : List Word)
  deriving DecidableEq, Repr

/-- The tokens with the collected characters as one more word, if there are any; last first. -/
def endWord (text : List Char) (tokens : List Token) : List Token :=
  if text.isEmpty then tokens else .word text.reverse :: tokens

/-- The tokens of one line; a run of separators ends a word and is otherwise nothing (see `isSeparator`). A `;` outside a string ends the line (R80); a string never closed is a `LexError` (R84). -/
def scan : List Char → Scan → List Token → Except AsmError (List Token)
  | [], .plain text, tokens => .ok (endWord text tokens).reverse
  | [], .inString _, _ => .error .unterminatedString
  | [], .escape _, _ => .error .unterminatedString
  | c :: cs, .plain text, tokens =>
    if c = ';' then .ok (endWord text tokens).reverse
    else if c = '"' then scan cs (.inString []) (endWord text tokens)
    else if c = ':' then scan cs (.plain []) (.label text.reverse :: tokens)
    else if isSeparator c then scan cs (.plain []) (endWord text tokens)
    else scan cs (.plain (c :: text)) tokens
  | c :: cs, .inString codes, tokens =>
    if c = '"' then scan cs (.plain []) (.str codes.reverse :: tokens)
    else if c = '\\' then scan cs (.escape codes) tokens
    else
      match charCode c with
      | none => .error (.nonAscii c)
      | some v => scan cs (.inString (v :: codes)) tokens
  | c :: cs, .escape codes, tokens =>
    match escapeCode c with
    | none => .error (.unknownEscape c)
    | some v => scan cs (.inString (v :: codes)) tokens

/-! ## Operand spellings (R82) -/

/-- The register a name stands for, upper-cased first (R80; 10_state.md R10). -/
def Reg.ofName (text : List Char) : Option Reg :=
  match text.map Char.toUpper with
  | ['A'] => some .A
  | ['B'] => some .B
  | ['C'] => some .C
  | ['X'] => some .X
  | ['Y'] => some .Y
  | ['Z'] => some .Z
  | ['I'] => some .I
  | ['J'] => some .J
  | _ => none

/-- The named pseudo-operands written without brackets: PUSH, POP, PEEK, SP, PC, O (R82). -/
def pseudoOperand (text : List Char) : Option AsmOperand :=
  let name := String.ofList (text.map Char.toUpper)
  if name = "PUSH" then some .push
  else if name = "POP" then some .pop
  else if name = "PEEK" then some .peek
  else if name = "SP" then some .spVal
  else if name = "PC" then some .pcVal
  else if name = "O" then some .oVal
  else none

/-- The stack operands written with brackets: `[--SP]`, `[SP++]`, `[SP]` (R82; decision D26). -/
def bracketedStack (inner : List Char) : Option AsmOperand :=
  let name := String.ofList (inner.map Char.toUpper)
  if name = "--SP" then some .push
  else if name = "SP++" then some .pop
  else if name = "SP" then some .peek
  else none

/-- The value of a digit in a base of at most sixteen. The digits A to F count in either case: R83 shows them in upper
case only and says no more (DESIGN CHOICE, unsafe for the text only: log entry 27). -/
def digitValue (base : Nat) (c : Char) : Option Nat :=
  let v :=
    if '0' ≤ c ∧ c ≤ '9' then some (c.toNat - 48)
    else if 'a' ≤ c ∧ c ≤ 'f' then some (c.toNat - 87)
    else if 'A' ≤ c ∧ c ≤ 'F' then some (c.toNat - 55)
    else none
  match v with
  | some d => if d < base then some d else none
  | none => none

/-- The number that digits make after the number so far. -/
def digitsValue (base : Nat) : Nat → List Char → Option Nat
  | acc, [] => some acc
  | acc, c :: cs =>
    match digitValue base c with
    | none => none
    | some d => digitsValue base (base * acc + d) cs

/-- Unsigned decimal, or hexadecimal with `0x` (R83; decision D27). The prefix is taken as R83 writes it, in lower case
only (DESIGN CHOICE, unsafe for the text only: log entry 27). -/
def numberOf (text : List Char) : Option Nat :=
  match text with
  | [] => none
  | ['0', 'x'] => none
  | '0' :: 'x' :: digits => digitsValue 16 0 digits
  | digits => digitsValue 10 0 digits

/-- Whether characters may name a label: letters, digits and underscores, no digit first, and no name of a register or
pseudo-operand. The spec leaves the syntax of label names open (91_not_in_source.md N20; log entry 27). -/
def isLabelName (text : List Char) : Bool :=
  match text with
  | [] => false
  | c :: cs =>
    (c.isAlpha || c == '_') && cs.all (fun d => d.isAlphanum || d == '_') && (Reg.ofName text).isNone &&
      (pseudoOperand text).isNone

/-- A number or a label (R61). -/
def numOf (text : List Char) : Option Num :=
  match numberOf text with
  | some n => some (.num n)
  | none => if isLabelName text then some (.label (String.ofList text)) else none

/-- The characters before and after the first plus sign. -/
def splitPlus : List Char → Option (List Char × List Char)
  | [] => none
  | c :: cs =>
    if c = '+' then some ([], cs)
    else
      match splitPlus cs with
      | none => none
      | some (l, r) => some (c :: l, r)

/-- `offset+register`, the offset on either side (R82). Two registers are no such operand (log entry 27). -/
def indexed (inner : List Char) : Option AsmOperand :=
  match splitPlus inner with
  | none => none
  | some (l, r) =>
    match Reg.ofName l, Reg.ofName r with
    | some q, none => (numOf r).map (.regIdx q)
    | none, some q => (numOf l).map (.regIdx q)
    | _, _ => none

/-- The characters inside surrounding brackets. -/
def insideBrackets : List Char → Option (List Char)
  | '[' :: cs => if cs.getLast? = some ']' then some cs.dropLast else none
  | _ => none

/-- What a word in brackets denotes, in the order of R82. -/
def indirectOperand (inner : List Char) : Option AsmOperand :=
  (indexed inner).orElse fun _ =>
  ((Reg.ofName inner).map .regInd).orElse fun _ =>
  (bracketedStack inner).orElse fun _ =>
  (numOf inner).map .memAbs

/-- What a word without brackets denotes, in the order of R82. -/
def directOperand (text : List Char) : Option AsmOperand :=
  ((Reg.ofName text).map .reg).orElse fun _ =>
  (pseudoOperand text).orElse fun _ =>
  (numOf text).map .lit

/-- The abstract operand of a token (R82); every other spelling is refused. -/
def parseOperand : Token → Except AsmError AsmOperand
  | .str codes => .ok (.str codes)
  | .label text => .error (.badLabel (String.ofList text))
  | .word text =>
    let x :=
      match insideBrackets text with
      | some inner => indirectOperand inner
      | none => directOperand text
    match x with
    | some x => .ok x
    | none => .error (.badOperand (String.ofList text))

/-- The abstract operands of tokens, left to right. -/
def parseOperands : List Token → Except AsmError (List AsmOperand)
  | [] => .ok []
  | t :: ts =>
    match parseOperand t with
    | .error e => .error e
    | .ok x =>
      match parseOperands ts with
      | .error e => .error e
      | .ok xs => .ok (x :: xs)

/-! ## The Line Normalizer (R85) -/

/-- A normalised line: its labels, its mnemonic as written, its operand tokens, and the number of its source line,
counted from 1. -/
structure Line where
  labels : List Label
  mnemonic : String
  operands : List Token
  source : Nat
  deriving DecidableEq, Repr

/-- The lines of a text. -/
def splitLines : List Char → List (List Char)
  | [] => [[]]
  | c :: cs =>
    if c = '\n' then [] :: splitLines cs
    else
      match splitLines cs with
      | [] => [[c]]
      | l :: ls => (c :: l) :: ls

/-- The leading labels of a line, after labels already pending, and the tokens after them. -/
def takeLabels : List Label → List Token → Except AsmError (List Label × List Token)
  | ls, .label text :: ts =>
    if isLabelName text then takeLabels (ls ++ [String.ofList text]) ts else .error (.badLabel (String.ofList text))
  | ls, ts => .ok (ls, ts)

/-- Comments and empty lines dropped, labels kept for the mnemonic that follows them, on the same line or a later one;
`n` is the number of the first line given, `pending` the labels before it. -/
def normalise : Nat → List Label → List (List Char) → Except AsmError (List Line)
  | _, [], [] => .ok []
  | _, l :: _, [] => .error (.labelWithoutMnemonic l)
  | n, pending, cs :: rest =>
    match scan cs (.plain []) [] with
    | .error e => .error e
    | .ok tokens =>
      match takeLabels pending tokens with
      | .error e => .error e
      | .ok (ls, []) => normalise (n + 1) ls rest
      | .ok (ls, .word m :: ops) =>
        match normalise (n + 1) [] rest with
        | .error e => .error e
        | .ok lines => .ok ({ labels := ls, mnemonic := String.ofList m, operands := ops, source := n } :: lines)
      | .ok (_, .str _ :: _) => .error .missingMnemonic
      | .ok (_, .label text :: _) => .error (.badLabel (String.ofList text))

/-- The normalised lines of a source text. -/
def normaliseText (text : String) : Except AsmError (List Line) := normalise 1 [] (splitLines text.toList)

/-- The instruction-index to source-line map of R85. -/
def sourceLines (lines : List Line) : List Nat := lines.map Line.source

/-! ## The two passes (R87, R88, R89) -/

/-- The words of a normalised line: its mnemonic is looked up, then its operand tokens are counted (R81), read and
encoded. -/
def encodeTokens (name : String) (tokens : List Token) : Except AsmError (List Emitted) :=
  match Mnemonic.ofName name with
  | none => .error (.unknownMnemonic name)
  | some m =>
    if m.accepts tokens.length then
      match parseOperands tokens with
      | .error e => .error e
      | .ok xs => encodeMnemonic config m xs
    else .error .argumentCount

/-- The symbol table: labels with their addresses. -/
abbrev Symbols := List (Label × Nat)

/-- The address of a label. Names are compared as written, upper and lower case told apart: the spec leaves the case of
label names open (91_not_in_source.md N20; DESIGN CHOICE, unsafe where two labels differ in case only: log entry 25). -/
def Symbols.find : Symbols → Label → Option Nat
  | [], _ => none
  | (k, a) :: t, l => if k = l then some a else Symbols.find t l

/-- Record labels at an address; a second definition of a label is refused (log entry 25). -/
def Symbols.record : Symbols → List Label → Nat → Except AsmError Symbols
  | t, [], _ => .ok t
  | t, l :: ls, a =>
    match t.find l with
    | some _ => .error (.duplicateLabel l)
    | none => Symbols.record (t ++ [(l, a)]) ls a

/-- Pass 1 (R87): each line's labels are recorded at the cursor, which is the number of words emitted so far, and its
words appended. -/
def passOne : List Line → Symbols → List Emitted → Except AsmError (Symbols × List Emitted)
  | [], t, out => .ok (t, out)
  | line :: rest, t, out =>
    match t.record line.labels out.length with
    | .error e => .error e
    | .ok t' =>
      match encodeTokens line.mnemonic line.operands with
      | .error e => .error e
      | .ok words => passOne rest t' (out ++ words)

/-- Pass 2 (R88): each placeholder gets its label's address; `addr` is the address of the first word given. -/
def passTwo (t : Symbols) : Nat → List Emitted → Except AsmError (List Word)
  | _, [] => .ok []
  | addr, e :: es =>
    let here : Except AsmError Word :=
      match e.label with
      | none => .ok e.word
      | some l =>
        match t.find l with
        | none => .error (.undefinedLabel l addr)
        | some a => if a ≤ 0xFFFF then .ok (BitVec.ofNat 16 a) else .error (.outOfRange a)
    match here with
    | .error err => .error err
    | .ok w =>
      match passTwo t (addr + 1) es with
      | .error err => .error err
      | .ok ws => .ok (w :: ws)

/-- The two passes: the word array, or the first error and no output (R89). -/
def assemble (lines : List Line) : Except AsmError (List Word) :=
  match passOne lines [] [] with
  | .error e => .error e
  | .ok (t, out) => passTwo t 0 out

/-- The whole compile, from source text to the word array that `LOAD` takes (R89). -/
def compile (text : String) : Except AsmError (List Word) :=
  match normaliseText text with
  | .error e => .error e
  | .ok lines => assemble lines

/-- The optional map of R89, from the address of each line's first word to its source line; `addr` is the address of
the first line given. -/
def addressLines : Nat → List Line → Except AsmError (List (Nat × Nat))
  | _, [] => .ok []
  | addr, line :: rest =>
    match encodeTokens line.mnemonic line.operands with
    | .error e => .error e
    | .ok words =>
      match addressLines (addr + words.length) rest with
      | .error e => .error e
      | .ok m => .ok ((addr, line.source) :: m)

end Sys2Proof.Machine
end

