-- ==== Sys2Proof/Tests/Slice0.lean ====
section
/-! SUPPORT. Small tests, each of one step or one word, with the expected result from spec/ (mostly
95_test_vectors.md), and a witness for the hypotheses of each statement of Obligations.lean. -/

namespace Sys2Proof.Tests

open Sys2Proof.Machine Sys2Proof.Claims

/-- The state from reset with an image at address 0 and O = 0x5555, the start state of 95_test_vectors.md section 2. -/
def boot (ws : List Word) : State := { State.reset with mem := Memory.load [] 0 ws, o := 0x5555 }

/-- The state with two registers set. -/
def withAB (s : State) (a b : Word) : State := (s.setReg .A a).setReg .B b

/-- The state with one memory word set. -/
def withMem (s : State) (addr v : Word) : State := { s with mem := s.mem.write addr.toNat v }

/-- One answer is a next state with a property. -/
def nextIs (o : Host.Outcome State Fault Refusal) (p : State → Bool) : Bool :=
  match o with
  | .next t => p t
  | .fault _ => false
  | .refused _ => false

/-- One step answers a next state with a property. -/
def ran (s : State) (p : State → Bool) : Bool := nextIs (step s) p

/-- `op A, B` (one word) with A and B given, leaves A and O as given. -/
def alu (w a b a' o' : Word) : Bool :=
  ran (withAB (boot [w]) a b) fun t => t.reg .A == a' && t.o == o' && t.reg .B == b && t.pc == 1

/-! ## Well-formedness -/

/-- An illegal word with JSR's sub-opcode is refused: 30_encoding.md R59. -/
theorem test_wf_refuses_illegal_with_call_subopcode : (Instr.illegal 0x01 0x3F).wf = false := by decide

theorem test_wf_accepts_illegal : (Instr.illegal 0x00 0x00).wf = true ∧ (Instr.illegal 0x3F 0x00).wf = true := by decide

/-! ## Decoding: a word per constructor, written out as `fo + 16 * fa + 1024 * fb` (95_test_vectors.md section 2) -/

theorem test_decode_set : decodeWord 0x5961 = .set (.regIdx .I) (.regIdx .I) := by decide

theorem test_decode_add : decodeWord 0x61B2 = .add .spVal .pop := by decide

theorem test_decode_sub : decodeWord 0x85C3 = .sub .pcVal (.lit 1) := by decide

theorem test_decode_mul : decodeWord 0xC004 = .mul (.reg .A) (.lit 0x10) := by decide

theorem test_decode_div : decodeWord 0x0405 = .div (.reg .A) (.reg .B) := by decide

theorem test_decode_mod : decodeWord 0x8806 = .mod (.reg .A) (.lit 2) := by decide

theorem test_decode_shl : decodeWord 0x8407 = .shl (.reg .A) (.lit 1) := by decide

theorem test_decode_shr : decodeWord 0x8408 = .shr (.reg .A) (.lit 1) := by decide

theorem test_decode_and : decodeWord 0x0409 = .and (.reg .A) (.reg .B) := by decide

theorem test_decode_bor : decodeWord 0x040A = .bor (.reg .A) (.reg .B) := by decide

theorem test_decode_xor : decodeWord 0x000B = .xor (.reg .A) (.reg .A) := by decide

theorem test_decode_ife : decodeWord 0x8A1C = .ife (.lit 1) (.lit 2) := by decide

theorem test_decode_ifn : decodeWord 0x806D = .ifn (.reg .I) (.lit 0) := by decide

theorem test_decode_ifg : decodeWord 0x1A3E = .ifg (.lit 3) (.reg .I) := by decide

theorem test_decode_ifb : decodeWord 0xC00F = .ifb (.reg .A) (.lit 0x10) := by decide

theorem test_decode_jsr : decodeWord 0x7C10 = .jsr .imm := by decide

theorem test_decode_illegal : decodeWord 0x6020 = .illegal 0x02 0x18 := by decide

/-- The edges of the illegal space: 95_test_vectors.md section 2.14. -/
theorem test_decode_illegal_edges :
    decodeWord 0x0000 = .illegal 0x00 0x00 ∧ decodeWord 0x03F0 = .illegal 0x3F 0x00 ∧
      decodeWord 0xFC00 = .illegal 0x00 0x3F ∧ decodeWord 0xFC10 = .jsr (.lit 0x1F) := by decide

/-- Where the classes of operand codes meet: 30_encoding.md R55. -/
theorem test_decode_operand_edges :
    decodeOperand 0x07 = .reg .J ∧ decodeOperand 0x08 = .regInd .A ∧ decodeOperand 0x0F = .regInd .J ∧
      decodeOperand 0x10 = .regIdx .A ∧ decodeOperand 0x17 = .regIdx .J ∧ decodeOperand 0x18 = .pop ∧
      decodeOperand 0x19 = .peek ∧ decodeOperand 0x1A = .push ∧ decodeOperand 0x1B = .spVal ∧
      decodeOperand 0x1C = .pcVal ∧ decodeOperand 0x1D = .oVal ∧ decodeOperand 0x1E = .memAbs ∧
      decodeOperand 0x1F = .imm ∧ decodeOperand 0x20 = .lit 0 ∧ decodeOperand 0x3F = .lit 0x1F := by decide

/-- `SET [0x1000], 0x2000` is `7DE1 1000 2000`, A's trailing word first: 40_operand_resolver.md R121. -/
theorem test_decode_three_words :
    decode [0x7DE1, 0x1000, 0x2000, 0x8401] = .ok (.set .memAbs .imm, [0x1000, 0x2000], [0x8401]) := by decide

theorem test_decode_missing_word : decode [0x7DE1, 0x1000] = .error .missingTrailingWord := by decide

theorem test_decode_no_word : decode [] = .error .noWord := by decide

theorem test_decodeTableWord : decodeTableWord 16 0x7C10 = some (.jsr .imm) := by decide

/-- A row's word runs as the next instruction: `SET [0x0000], 0x0000` with zero trailing words. -/
theorem test_withFetchWord : ran (State.reset.withFetchWord 16 0x7DE1) (fun t => t.pc == 3 && !t.faulted) = true := by
  decide

/-! ## One step per instruction (95_test_vectors.md sections 2.1 to 2.10) -/

theorem test_set_b : alu 0x0401 0 0x1234 0x1234 0 = true := by decide

/-- `SET A, 0x42` at 0xFFFF: the trailing word wraps to 0x0000 (41_step_engine.md R146). -/
theorem test_set_wraps :
    ran { withMem (boot [0x0042]) 0xFFFF 0x7C01 with pc := 0xFFFF } (fun t => t.reg .A == 0x42 && t.pc == 1) = true := by
  decide

theorem test_add_carry : alu 0x0402 0xFFFF 0x0001 0x0000 0x0001 = true := by decide

/-- `ADD 0x0100, 1` rewrites its own trailing word (decision D13). -/
theorem test_add_trailing_word :
    ran (boot [0x85F2, 0x0100]) (fun t => t.memRead 1 == 0x0101 && t.o == 0 && t.pc == 2) = true := by decide

theorem test_sub_borrow : alu 0x0403 0x0003 0x0005 0xFFFE 0xFFFF = true := by decide

theorem test_sub_largest_borrow : alu 0x0403 0x0000 0xFFFF 0x0001 0xFFFF = true := by decide

theorem test_mul_high : alu 0x0404 0x1234 0x5678 0x0060 0x0626 = true := by decide

theorem test_mul_largest : alu 0x0404 0xFFFF 0xFFFF 0x0001 0xFFFE = true := by decide

theorem test_div_zero : alu 0x0405 0x0001 0x0000 0x0000 0x0000 = true := by decide

theorem test_div : alu 0x0405 0xFFFF 0x0002 0x7FFF 0x0000 = true := by decide

theorem test_mod_zero : alu 0x0406 0x0007 0x0000 0x0000 0x0000 = true := by decide

theorem test_mod : alu 0x0406 0xFFFF 0x0100 0x00FF 0x0000 = true := by decide

/-- Counts 1, 4, 16, 17, 31. -/
theorem test_shl_counts :
    (alu 0x0407 0x8001 1 0x0002 0x0001 && alu 0x0407 0xFFFF 4 0xFFF0 0x000F && alu 0x0407 0xFFFF 16 0 0xFFFF &&
      alu 0x0407 0x0001 17 0 0x0002 && alu 0x0407 0xFFFF 31 0 0x8000) = true := by decide

theorem test_shl_32 : alu 0x0407 0x0001 32 0 0 = true := by decide

theorem test_shr_counts :
    (alu 0x0408 0x8001 1 0x4000 0 && alu 0x0408 0x8000 15 0x0001 0 && alu 0x0408 0xFFFF 16 0 0) = true := by decide

theorem test_and : alu 0x0409 0xF0F0 0x0FF0 0x00F0 0 = true := by decide

theorem test_bor : alu 0x040A 0xF0F0 0x0FF0 0xFFF0 0 = true := by decide

theorem test_xor : alu 0x040B 0xF0F0 0x0FF0 0xFF00 0 = true := by decide

/-- `IFx A, B`: SKIP after, and A, B, O unchanged. -/
def cond (w a b : Word) (skip : Bool) : Bool :=
  ran (withAB (boot [w]) a b) fun t => t.skip == skip && t.reg .A == a && t.reg .B == b && t.o == 0x5555 && t.pc == 1

theorem test_ife : (cond 0x040C 0x8000 0x8000 false && cond 0x040C 1 2 true) = true := by decide

theorem test_ifn : (cond 0x040D 0x8000 0x8000 true && cond 0x040D 1 2 false) = true := by decide

/-- Unsigned: 0xFFFF is greater than 1; equal operands are false. -/
theorem test_ifg :
    (cond 0x040E 0xFFFF 1 false && cond 0x040E 1 0xFFFF true && cond 0x040E 0x8000 0x8000 true) = true := by decide

theorem test_ifb : (cond 0x040F 0x00F0 0x0F00 true && cond 0x040F 0x00F0 0x0010 false) = true := by decide

/-- `JSR 0x1234` at 0x0020 (section 2.13). -/
theorem test_jsr :
    ran { withMem (withMem (boot []) 0x20 0x7C10) 0x21 0x1234 with pc := 0x20, sp := 0x9000 } (fun t =>
      t.pc == 0x1234 && t.sp == 0x8FFF && t.memRead 0x8FFF == 0x22 && t.o == 0x5555) = true := by decide

/-- `JSR POP` swaps the return address with PC (section 2.13). -/
theorem test_jsr_pop :
    ran { withMem (withMem (boot []) 0x20 0x6010) 0x9000 0x0040 with pc := 0x20, sp := 0x9000 } (fun t =>
      t.pc == 0x40 && t.sp == 0x9000 && t.memRead 0x9000 == 0x21) = true := by decide

/-- `0x6020` with SP = 5: the pop in its operand field is not performed (section 2.14). -/
theorem test_illegal :
    ran { boot [0x6020] with sp := 5 } (fun t => t.pc == 1 && t.sp == 5 && t.faulted && t.o == 0x5555) = true := by decide

/-- Suppressed, an illegal word still faults and SKIP stays (section 2.11). -/
theorem test_illegal_suppressed :
    ran { boot [0x0000] with skip := true } (fun t => t.pc == 1 && t.skip && t.faulted) = true := by decide

/-! ## The resolver, one row per class (section 2.12) -/

/-- The start state of section 2.12. -/
def resolverStart (ws : List Word) : State :=
  { withMem (withMem (withMem (withMem (withMem (boot ws) 0x0100 0x1111) 0x0102 0x2222) 0x9000 0x3333) 0x8FFF 0x4444)
      0x0300 0x5555 with
    regs := State.reset.regs.set .A 0x0100, sp := 0x9000, o := 0x0BAD }

/-- `SET X, <operand>` leaves X and SP as given, PC at the instruction's length, and O zero. -/
def source (ws : List Word) (x sp : Word) : Bool :=
  ran (resolverStart ws) fun t =>
    t.reg .X == x && t.sp == sp && t.pc == BitVec.ofNat 16 ws.length && t.o == 0

theorem test_resolver_sources :
    (source [0x0031] 0x0100 0x9000 && source [0x2031] 0x1111 0x9000 && source [0x4031, 2] 0x2222 0x9000 &&
      source [0x6031] 0x3333 0x9001 && source [0x6431] 0x3333 0x9000 && source [0x6831] 0x4444 0x8FFF &&
      source [0x6C31] 0x9000 0x9000) = true := by decide

theorem test_resolver_sources_special :
    (source [0x7031] 0x0001 0x9000 && source [0x7431] 0x0BAD 0x9000 && source [0x7831, 0x0300] 0x5555 0x9000 &&
      source [0x7C31, 0x0300] 0x0300 0x9000 && source [0x8031] 0 0x9000 && source [0xFC31] 0x1F 0x9000) = true := by
  decide

theorem test_resolver_destinations :
    (ran (resolverStart [0x9C01]) (fun t => t.reg .A == 7) && ran (resolverStart [0x9C81]) (fun t => t.memRead 0x100 == 7) &&
      ran (resolverStart [0x9D01, 2]) (fun t => t.memRead 0x102 == 7) &&
      ran (resolverStart [0x9D81]) (fun t => t.memRead 0x9000 == 7 && t.sp == 0x9001) &&
      ran (resolverStart [0x9D91]) (fun t => t.memRead 0x9000 == 7 && t.sp == 0x9000) &&
      ran (resolverStart [0x9DA1]) (fun t => t.memRead 0x8FFF == 7 && t.sp == 0x8FFF)) = true := by decide

theorem test_resolver_destinations_special :
    (ran (resolverStart [0x9DB1]) (fun t => t.sp == 7) && ran (resolverStart [0x9DC1]) (fun t => t.pc == 7) &&
      ran (resolverStart [0x9DD1]) (fun t => t.o == 0) &&
      ran (resolverStart [0x9DE1, 0x300]) (fun t => t.memRead 0x300 == 7) &&
      ran (resolverStart [0x9DF1, 0x300]) (fun t => t.memRead 1 == 7) &&
      ran (resolverStart [0x9FF1]) (fun t => t.mem == (resolverStart [0x9FF1]).mem && t.o == 0)) = true := by decide

/-- `ADD SP, POP` and `ADD SP, PUSH` (section 2.2, decision D12). -/
theorem test_add_sp :
    (ran { withMem (boot [0x61B2]) 0x8000 5 with sp := 0x8000 } (fun t => t.sp == 0x8006) &&
      ran { withMem (boot [0x69B2]) 0x7FFF 5 with sp := 0x8000 } (fun t => t.sp == 0x8004)) = true := by decide

/-- `SET PUSH, 0x1234` suppressed moves PC and SP and stores nothing (section 2.11). -/
theorem test_suppressed_push :
    ran { boot [0x7DA1, 0x1234] with skip := true } (fun t =>
      t.pc == 2 && t.sp == 0xFFFF && t.memRead 0xFFFF == 0 && !t.skip && t.o == 0x5555) = true := by decide

/-! ## The other settings of the parameters (00_scope.md R5; the vectors' own columns) -/

theorem test_shr_shifted_out :
    shrOverflow { config with shrORule := .shiftedOut } 0x8001 1 = 0x8000 ∧
      shrOverflow { config with shrORule := .shiftedOut } 0xFFFF 16 = 0xFFFF := by decide

theorem test_shift_count_mask :
    lowWord (shlResult { config with shiftCountMask := some 0x1F } 1 0x20) = 1 ∧
      highWord (shlResult { config with shiftCountMask := some 0x1F } 0xFFFF 0xFFFF) = 0x8000 := by decide

/-- Section 2.2: with `at_resolution`, `ADD SP, POP` gives 0x8005. -/
theorem test_read_at_resolution :
    nextIs (writing { config with operandReadTiming := .atResolution } addResult .spVal .pop
      { withMem (boot []) 0x8000 5 with sp := 0x8000 }) (fun t => t.sp == 0x8005) = true := by decide

theorem test_set_leaves_o :
    nextIs (writingSet { config with setWritesO := false } .oVal (.lit 7) (boot [])) (fun t => t.o == 7) = true := by
  decide

theorem test_o_needs_writable :
    nextIs (writing { config with oWriteNeedsWritableDest := true } addResult (.lit 31) (.lit 31) (boot []))
      (fun t => t.o == 0x5555) = true := by decide

theorem test_no_fault_when_suppressed :
    nextIs (illegalOpcode { config with faultWhenSuppressed := false } { boot [] with skip := true })
      (fun t => !t.faulted && !t.skip) = true := by decide

/-! ## The encoder and the two passes (95_test_vectors.md S2, S3, S9 and section 2.15) -/

theorem test_encode_folded : encodeLine "SET" [.reg .A, .lit (.num 5)] = .ok [Emitted.plain 0x9401] := by decide

theorem test_encode_two_words :
    encodeLine "SET" [.reg .A, .lit (.num 0x20)] = .ok [Emitted.plain 0x7C01, Emitted.plain 0x0020] := by decide

theorem test_encode_indirect_not_folded :
    encodeLine "SET" [.reg .A, .memAbs (.num 5)] = .ok [Emitted.plain 0x7801, Emitted.plain 0x0005] := by decide

theorem test_encode_data :
    encodeLine "DAT" [.str [0x48, 0x69], .lit (.num 5)] =
      .ok [Emitted.plain 0x48, Emitted.plain 0x69, Emitted.plain 5] := by decide

theorem test_encode_errors :
    encodeLine "SET" [.reg .A, .lit (.num 0x10000)] = .error (.outOfRange 0x10000) ∧
      encodeLine "SET" [.reg .A] = .error .argumentCount := by decide

/-- S2 as text: forward, backward and aliased labels, and a comment. S2's labels `a` and `b` are `la` and `lb` here, since
`a` and `b` are register names in any case (30_encoding.md R80, R82). -/
theorem test_compile_labels :
    compile "  SET PC, end ; forward\nla: lb:\n  SET A, 1\nset pc, la\nend: SET PC lb" =
      .ok [0x7DC1, 0x0005, 0x8401, 0x7DC1, 0x0002, 0x7DC1, 0x0002] := by decide

/-- Section 2.15: operand spellings. -/
theorem test_compile_spellings :
    compile "SET [0x3000+i], [9+I]\nSET PEEK, 9\nSET [SP++], [--SP]\nSET [SP], [B]\nSET O, SP\nDAT \"Hi\", 5" =
      .ok [0x5961, 0x3000, 0x0009, 0xA591, 0x6981, 0x2591, 0x6DD1, 0x48, 0x69, 5] := by decide

/-- S9: the four errors, and the unterminated string of R84. -/
theorem test_compile_errors :
    compile "FOO A, 1" = .error (.unknownMnemonic "FOO") ∧
      compile "SET PC, nowhere" = .error (.undefinedLabel "nowhere" 1) ∧
      compile "SET A, 0x10000" = .error (.outOfRange 0x10000) ∧ compile "SET A" = .error .argumentCount ∧
      compile "DAT \"Hi" = .error .unterminatedString := by decide

/-- A name that is a register's is no label; a label in another case is another label. -/
theorem test_label_names :
    compile "a: SET A, 1" = .error (.badLabel "a") ∧
      compile "End: SET PC, end" = .error (.undefinedLabel "end" 1) := by decide

/-- Decisions D26 and D27: spellings that are refused. -/
theorem test_refused_spellings :
    (["[PC]", "[POP]", "SP++", "A+1", "-1", "0x", "[A+B]"].all fun x =>
      parseOperand (.word x.toList) == .error (.badOperand x)) = true := by decide

/-- A `;` and a blank inside a string, and the escapes of R84. -/
theorem test_string_escapes :
    scan "DAT \"; \\n\\0\\\"\" ;x".toList (.plain []) [] =
      .ok [.word "DAT".toList, .str [59, 32, 10, 0, 34]] := by decide

/-! ## The observer and the driver -/

/-- `ADD [0x1000], 2` with the range 0x1000..0x1000 is reported once (42_set_and_alu.md R167, 20_memory.md R40). -/
theorem test_observed_store :
    ran { withMem (boot [0x89E2, 0x1000]) 0x1000 0xFFFF with obsLo := 0x1000, obsHi := 0x1000 } (fun t =>
      t.reports == [⟨0x1000, 0x0001⟩] && t.memRead 0x1000 == 1 && t.o == 1) = true := by decide

theorem test_unobserved_store :
    ran { boot [0x89E2, 0x1000] with obsLo := 0x0000, obsHi := 0x0FFF } (fun t => t.reports == []) = true := by decide

/-- S8 and P7: the fault, then the latch. -/
theorem test_driver_fault :
    (transact .step (boot [0x0020])).1 = .illegalOpcode 0x0020 0x0000 ∧
      (transact .step (transact .step (boot [0x0020])).2).1 = .faultAgain := by decide

theorem test_driver_load_and_inspect :
    (transact (.inspect (.mem 1)) (transact (.load [0x8401, 0x0020]) State.reset).2).1 = .value 0x0020 := by decide

/-! ## Witnesses: for each statement of Obligations.lean that has hypotheses, states and operands that meet them
together; one per clause, at the boundary, where a statement has several -/

/-- An unsuppressed state whose registers A and B are the values of `Reg A, Reg B` as operands. -/
def ab (a b : Word) : State := withAB State.reset a b

/-- The state is unsuppressed and the operand values of `Reg A, Reg B` in it are these. -/
def meets (a b : Word) : Bool :=
  !(ab a b).skip && valA (.reg .A) (.reg .B) (ab a b) == a && valB (.reg .A) (.reg .B) (ab a b) == b

/-- A state with a stored word, an observer range, and a report in it, about to store at the range's upper end. -/
def watched : State :=
  { boot [0x89E2, 0x1000] with obsLo := 0x0FFF, obsHi := 0x1000, reports := [⟨0x0FFF, 7⟩] }

theorem witness_StepKeepsInvariant : watched.Inv ∧ ∃ t, step watched = .next t ∧ t.reports.length = 2 :=
  ⟨⟨by decide, by unfold State.reportsInRange; decide⟩, _, rfl, by decide⟩

theorem witness_DecodeOfEncodeIsTheInstruction :
    (Instr.set .memAbs .imm).wf = true ∧ [0x1000, 0x2000].length = (Instr.set .memAbs .imm).trailing := by decide

theorem witness_IllegalAndCallWordsAreTheNonBasicOnes :
    decodeWord 0x0020 = .illegal 0x02 0x00 ∧ decodeWord 0x0010 = .jsr (.reg .A) := by decide

theorem witness_LengthIsKnownFromTheWord :
    wordTrailing 0x7DE1 = 2 ∧ wordTrailing 0x7C10 = 1 ∧ wordTrailing 0x7C00 = 0 := by decide

theorem witness_EncodedOperandDenotesTheOperand :
    numeric (.lit (.num 0x1F)) ∧ numeric (.lit (.num 0x20)) ∧ numeric (.memAbs (.num 0xFFFF)) :=
  ⟨Nat.le_of_ble_eq_true rfl, Nat.le_of_ble_eq_true rfl, Nat.le_of_ble_eq_true rfl⟩

theorem witness_OutOfRangeNumbersAreRefused : 0xFFFF < 0x10000 := by decide

/-- Folded at the largest folded number, and unfolded at the smallest unfolded one. -/
theorem witness_EncodedSetLoadsItsLiteral :
    stands (boot [0xFC01]) 0 [0xFC01] ∧ stands (boot [0x7C01, 0x0020]) 0 [0x7C01, 0x0020] ∧
      encodeLine "SET" [.reg .A, .lit (.num 0x1F)] = .ok [Emitted.plain 0xFC01] ∧
      encodeLine "SET" [.reg .A, .lit (.num 0x20)] = .ok [Emitted.plain 0x7C01, Emitted.plain 0x0020] :=
  ⟨⟨by decide, trivial⟩, ⟨by decide, by decide, trivial⟩, by decide, by decide⟩

theorem witness_StepRunsTheDecodedInstruction :
    (boot [0x0401]).faulted = false ∧ decodeWord ((boot [0x0401]).memRead (boot [0x0401]).pc) = .set (.reg .A) (.reg .B) := by
  decide

theorem witness_FaultLatchStopsTheEngine : ({ boot [0x0401] with faulted := true } : State).faulted = true := by decide

/-- The sub-opcodes on each side of JSR's, and the last one. -/
theorem witness_IllegalWordTakesTheException :
    illegalWord ((boot [0x0000]).memRead 0) ∧ illegalWord ((boot [0x0020]).memRead 0) ∧
      illegalWord ((boot [0xFFF0]).memRead 0) ∧ (boot [0xFFF0]).faulted = false := by
  refine ⟨⟨?_, ?_⟩, ⟨?_, ?_⟩, ⟨?_, ?_⟩, ?_⟩ <;> decide

theorem witness_OnlyIllegalWordsFault :
    ran (boot [0x0000]) (fun t => t.faulted) = true ∧ ran (boot [0xFFFF]) (fun t => !t.faulted) = true := by decide

/-- The first and last code of each row of the table. -/
theorem witness_ResolverTable :
    ([0x00, 0x07, 0x08, 0x0F, 0x10, 0x17, 0x18, 0x19, 0x1A, 0x1B, 0x1C, 0x1D, 0x1E, 0x1F, 0x20, 0x3F].all
      fun c => decide (c < 0x40)) = true := by decide

theorem witness_SourceOperandValues : (resolverStart [0x6831]).skip = false := by decide

theorem witness_DestinationOperandStores : (resolverStart [0x9DA1]).skip = false := by decide

theorem witness_OperandASeesTheMovesOfOperandB : ({ State.reset with sp := 0xFFFF } : State).skip = false := by decide

theorem witness_SetStoresOperandB : meets 0x0000 0xFFFF = true := by decide

theorem witness_AddStoresSumAndCarry : (meets 0xFFFF 0x0000 && meets 0xFFFF 0x0001) = true := by decide

theorem witness_SubStoresDifferenceAndBorrow : (meets 0x8000 0x8000 && meets 0x8000 0x8001) = true := by decide

theorem witness_MulStoresProductLowAndHigh : (meets 0x00FF 0x0101 && meets 0x0100 0x0100) = true := by decide

theorem witness_DivStoresQuotient : (meets 0xFFFF 0x0000 && meets 0xFFFF 0x0001) = true := by decide

theorem witness_ModStoresRemainder : (meets 0xFFFF 0x0000 && meets 0xFFFF 0x0001) = true := by decide

theorem witness_ShlStoresShiftedWordAndBitsOut :
    (meets 0x8001 0 && meets 0x8001 15 && meets 0x8001 16 && meets 0x8001 17 && meets 0x8001 31 && meets 0x8001 32) =
      true := by decide

theorem witness_ShrStoresShiftedWord : (meets 0x8001 15 && meets 0x8001 16) = true := by decide

theorem witness_AndStoresBitwiseAnd : meets 0xF0F0 0x0FF0 = true := by decide

theorem witness_BorStoresBitwiseOr : meets 0xF0F0 0x0FF0 = true := by decide

theorem witness_XorStoresBitwiseXor : meets 0xF0F0 0x0FF0 = true := by decide

/-- A register, a memory and a suppressed destination. -/
theorem witness_WritingInstructionsFrame :
    nextIs (exec (.add (.reg .A) (.reg .B)) (ab 1 2)) (fun t => t.reg .A == 3) = true ∧
      nextIs (exec (.add (.regInd .A) (.reg .B)) (ab 1 2)) (fun t => t.memRead 1 == 2) = true ∧
      nextIs (exec (.add (.reg .A) (.reg .B)) { ab 1 2 with skip := true }) (fun t => t.reg .A == 1) = true := by decide

theorem witness_IfeSkipsUnlessEqual : (meets 0x8000 0x8000 && meets 0x8000 0x8001) = true := by decide

theorem witness_IfnSkipsUnlessDifferent : (meets 0x8000 0x8000 && meets 0x8000 0x8001) = true := by decide

theorem witness_IfgSkipsUnlessGreater : (meets 0x8001 0x8000 && meets 0x8000 0x8000) = true := by decide

theorem witness_IfbSkipsUnlessCommonBit : (meets 0x8000 0x8000 && meets 0x8000 0x7FFF) = true := by decide

theorem witness_ConditionalInstructionsFrame :
    nextIs (exec (.ifg .pop .imm) (ab 1 2)) (fun t => t.sp == 1 && t.pc == 1) = true := by decide

theorem witness_JsrPushesReturnAddressAndJumps : (ab 1 2).skip = false := by decide

theorem witness_JsrCornerCases : ({ State.reset with sp := 0x0001 } : State).skip = false := by decide

theorem witness_JsrFrame :
    nextIs (exec (.jsr .pop) (ab 1 2)) (fun t => t.sp == 0) = true ∧
      nextIs (exec (.jsr .pop) { ab 1 2 with skip := true }) (fun t => t.sp == 1) = true := by decide

theorem witness_SuppressedInstructionOnlyMovesPcAndSp :
    ({ State.reset with skip := true } : State).skip = true ∧ ∀ fa fb, Instr.set .push .imm ≠ .illegal fa fb :=
  ⟨by decide, fun _ _ h => by cases h⟩

/-- A false conditional before a conditional. -/
theorem witness_OneSuppressionPerSetFlag :
    (boot [0x8A1C, 0x8A1C, 0x8401]).skip = false ∧
      ran (boot [0x8A1C, 0x8A1C, 0x8401]) (fun t => t.skip && (t.memRead t.pc).toNat % 16 != 0) = true := by decide

theorem witness_SkipIsSetOnlyByConditionals :
    ran (boot [0x8A1C]) (fun t => t.skip) = true ∧
      ran { boot [0x0000] with skip := true } (fun t => t.skip) = true := by decide

/-- Each conditional with a true and a false condition, before `SET PC, 0x0100`. -/
theorem witness_ConditionalBranchIdiom :
    ([(0x861C, Instr.ife (.lit 1) (.lit 1), false), (0x8A1C, .ife (.lit 1) (.lit 2), true),
      (0x8A1D, .ifn (.lit 1) (.lit 2), false), (0x861D, .ifn (.lit 1) (.lit 1), true),
      (0x862E, .ifg (.lit 2) (.lit 1), false), (0x861E, .ifg (.lit 1) (.lit 1), true),
      (0x861F, .ifb (.lit 1) (.lit 1), false), (0x8A1F, .ifb (.lit 1) (.lit 2), true)].all
      fun x : Word × Instr × Bool =>
        let s := boot [x.1, 0x7DC1, 0x0100]
        !s.faulted && !s.skip && decodeWord (s.memRead s.pc) == x.2.1 && decodeWord (s.memRead 1) == .set .pcVal .imm &&
          ran s (fun t => t.skip == x.2.2)) = true := by decide

theorem witness_RegistersChangeOnlyAsOperandA : ran (boot [0x8401]) (fun t => t.reg .A != 0) = true := by decide

theorem witness_OverflowChangesOnlyByWritingInstructions : ran (boot [0x8401]) (fun t => t.o != 0x5555) = true := by
  decide

/-- A store at each end of the range and one on each side of it. -/
theorem witness_ObserverHearsEachStoreInRange :
    ([0x0FFE, 0x0FFF, 0x1000, 0x1001].all fun x : Word =>
      (resolve (.regInd .A) { watched with regs := watched.regs.set .A x }).1 == .mem x) = true ∧
    watched.skip = false := by decide

theorem witness_ObserverCannotChangeTheEngine :
    sameEngine watched { watched with obsLo := 0xFFFF, obsHi := 0, reports := [] } ∧
      ran watched (fun t => t.memRead 0x1000 == 2) = true :=
  ⟨⟨rfl, rfl, rfl, rfl, rfl, rfl, rfl⟩, by decide⟩

theorem witness_SuppressedStepReadsNoData :
    ({ boot [0x7DA1, 0x1234] with skip := true } : State).memRead 0 =
        ({ withAB (boot [0x7DA1, 0x4321]) 1 2 with skip := true } : State).memRead 0 ∧
      ran { boot [0x7DA1, 0x1234] with skip := true } (fun t => t.pc == 2) = true := by decide

/-- `SET [0x0003], 0x8401` at address 0, after its fetch: it stores at the address after its own three words. -/
theorem witness_StoredWordIsTheNextFetched :
    let s : State := { boot [0x7DE1, 0x0003, 0x8401] with pc := 1 }
    s.faulted = false ∧ s.skip = false ∧ (resolve .memAbs s).1 = .mem 3 ∧
      nextIs (exec (.set .memAbs .imm) s) (fun t => t.pc == 3 && t.memRead 3 == 0x8401) = true := by decide

/-- `JSR 5` with SP = 6 pushes at its own target. -/
theorem witness_StoredWordIsTheNextFetched_push :
    let s : State := { State.reset with sp := 6 }
    s.faulted = false ∧ s.skip = false ∧ nextIs (exec (.jsr (.lit 5)) s) (fun t => t.sp == t.pc) = true := by decide

theorem witness_PushThenPopRestoresStack : State.reset.skip = false ∧ Operand.imm ≠ .pop ∧ Operand.imm ≠ .push := by
  decide

theorem witness_CallThenReturn : ({ State.reset with sp := 0x0001 } : State).skip = false := by decide

/-- The longest image that fits and the shortest that does not. -/
theorem witness_LoadPlacesTheImage :
    (List.replicate 0x10000 (0x0001 : Word)).length ≤ 0x10000 ∧
      0x10000 < (List.replicate 0x10001 (0x0001 : Word)).length := by
  rw [List.length_replicate, List.length_replicate]
  decide

theorem witness_OnlyResetClearsTheLatch :
    ({ boot [0x0401] with faulted := true } : State).faulted = true ∧ Transaction.step ≠ .reset := by decide

theorem witness_SuccessfulRunsNeverEndFaulted :
    (runDriver (fun t => t.pc == 1) 2 (boot [0x8401])).1 = .ok ∧ (runDriver (fun _ => true) 2 (boot [0x0000])).1 = .ok := by
  decide

/-- A run of a faulted engine is no success, with no budget and with a predicate that holds at once (60_exceptions.md
R194). -/
theorem test_faulted_run :
    let s : State := { boot [0x8401] with faulted := true }
    (runDriver (fun _ => false) 0 s).1 = .faultAgain ∧ (runDriver (fun _ => true) 5 s).1 = .faultAgain ∧
      safeFor 0 s = false := by decide

/-- Repeated and stray separators are one separator (log entry 27). -/
theorem test_stray_separators : compile "SET, A,, 5 ," = .ok [0x9401] := by decide

/-- Hexadecimal digits in either case, the prefix in lower case only (log entry 27). -/
theorem test_hex_case :
    numberOf "0xfF".toList = some 0xFF ∧ numberOf "0XFF".toList = none := by decide

theorem witness_EncodedInstructionsDecode : numeric (.regIdx .I (.num 0xFFFF)) ∧ numeric (.lit (.num 0x20)) :=
  ⟨Nat.le_of_ble_eq_true rfl, Nat.le_of_ble_eq_true rfl⟩

/-- Maps that are bijections and not the defaults: the numbers run backwards. -/
def backwards : Config :=
  { config with
    opcodeMap := { number := fun op => 16 - op.number, op := fun n => BasicOp.ofNumber (16 - n) }
    regMap := { number := fun r => 7 - r.number, reg := fun n => Reg.ofNumber (7 - n) } }

theorem witness_EveryMapRoundTrips : backwards.opcodeMap.wf = true ∧ backwards.regMap.wf = true := by decide

/-! ## The parameters' other settings, as a machine -/

/-- Under the backwards maps the word 0x9401 is `IFB J, 5`. -/
theorem test_backwards_map : decodeWordAs backwards 0x9401 = .ifb (.reg .J) (.lit 5) := by decide

theorem test_step_any_setting :
    nextIs (stepAs { config with setWritesO := false } (boot [0x8401])) (fun t => t.o == 0x5555 && t.reg .A == 1) = true := by
  decide

theorem test_reset_parameters :
    let s := State.resetWith { config with resetSp := 0x8000, resetReg := fun r => if r = .I then 7 else 0, memInit := [(3, 9)] }
    s.sp = 0x8000 ∧ s.reg .I = 7 ∧ s.memRead 3 = 9 := by decide

end Sys2Proof.Tests
end

section
/-! The encoder refuses every number that does not fit a word (30_encoding.md R67). -/

namespace Sys2Proof.Machine

/-! ## The range check, from the number to the operand -/

@[simp] theorem encodeNum_of_gt {n : Nat} (h : 0xFFFF < n) : encodeNum (.num n) = .error (.outOfRange n) :=
  if_neg (Nat.not_le_of_gt h)

/-- An operand with a trailing word passes on the error of its number. -/
theorem withTrailing_of_error {k : Num} {e : AsmError} (h : encodeNum k = .error e) (code : Operand) :
    withTrailing code k = .error e := by
  rw [withTrailing, h]

/-- A number too large to fold takes a trailing word, whether folding is allowed or not. -/
theorem encodeAsmOperand_lit_of_gt {n : Nat} (h : 0x1F < n) (fold : Bool) :
    encodeAsmOperand (.lit (.num n)) fold = withTrailing .imm (.num n) := by
  have hfold : ¬ (n ≤ 0x1F && fold) = true := by simp [h]
  exact if_neg hfold

/-- A directive passes on the error of its number. -/
theorem encodeData_lit_of_error {k : Num} {e : AsmError} (h : encodeNum k = .error e) :
    encodeData (.lit k) = .error e := by
  rw [encodeData, h]

/-! ## The obligation -/

/-- Settles O9: every operand with a number, and a directive's data, passes on the error of the one range check. -/
theorem outOfRangeNumbersAreRefused : Obligations.OutOfRangeNumbersAreRefused := by
  intro n fold r h
  have hnum : encodeNum (.num n) = .error (.outOfRange n) := encodeNum_of_gt h
  refine ⟨?literal, ?address, ?offset, ?data⟩
  case literal =>
    have hlit : 0x1F < n := by omega
    rw [encodeAsmOperand_lit_of_gt hlit]
    exact withTrailing_of_error hnum .imm
  case address => exact withTrailing_of_error hnum .memAbs
  case offset => exact withTrailing_of_error hnum (.regIdx r)
  case data => exact encodeData_lit_of_error hnum

end Sys2Proof.Machine
end

section
/-! The table of the Operand Resolver (40_operand_resolver.md R100), row by row along the decoder's own ranges of codes. -/

namespace Sys2Proof.Machine

/-! ## The codes' ranges, and resolution inside a choice of operands -/

/-- The operand a code names, with each range of codes closed by its last code, as R100 writes it. -/
theorem decodeOperand_eq (c : Nat) :
    decodeOperand c =
      if c ≤ 0x07 then .reg (Reg.ofNumber c)
      else if c ≤ 0x0F then .regInd (Reg.ofNumber (c - 0x08))
      else if c ≤ 0x17 then .regIdx (Reg.ofNumber (c - 0x10))
      else if c = 0x18 then .pop
      else if c = 0x19 then .peek
      else if c = 0x1A then .push
      else if c = 0x1B then .spVal
      else if c = 0x1C then .pcVal
      else if c = 0x1D then .oVal
      else if c = 0x1E then .memAbs
      else if c = 0x1F then .imm
      else .lit (BitVec.ofNat 5 (c - 0x20)) := by
  have hreg : c < 0x08 ↔ c ≤ 0x07 := Nat.lt_succ_iff
  have hind : c < 0x10 ↔ c ≤ 0x0F := Nat.lt_succ_iff
  have hidx : c < 0x18 ↔ c ≤ 0x17 := Nat.lt_succ_iff
  simp only [decodeOperand, decodeOperandAs, hreg, hind, hidx]
  rfl

/-- Resolving a choice of operands is a choice of resolutions. -/
theorem resolve_ite (p : Prop) [Decidable p] (x y : Operand) (s : State) :
    resolve (if p then x else y) s = if p then resolve x s else resolve y s :=
  apply_ite (resolve · s) p x y

/-! ## The obligation -/

/-- Settles O17: decoder and table branch on the same codes, so the resolution goes into each branch, and there the row
of the table is what `resolve` does with the operand of that class. -/
theorem resolverTable : Obligations.ResolverTable := by
  intro c s _
  rw [decodeOperand_eq]
  simp only [resolve_ite]
  -- Row by row, the definition of `resolve` at the operand's class.
  rfl

end Sys2Proof.Machine
end

section
/-! The fetch of a step (41_step_engine.md R131): the word at PC is read, then PC moves one further. -/

namespace Sys2Proof.Machine

/-- Settles O12: an engine that has not faulted executes the word its fetch read, and the fetch reads at PC and moves
PC, nothing else. -/
theorem stepRunsTheDecodedInstruction : Obligations.StepRunsTheDecodedInstruction := by
  rintro s _ hrunning rfl
  rw [step_runs hrunning, fetchWord_eq, afterFetch_eq, State.setPc]

end Sys2Proof.Machine
end

section
/-! SET at operand A's place: the store to the location A names, then 0 into O (42_set_and_alu.md R150, R151). -/

namespace Sys2Proof.Machine

/-! ## What SET stores and what O receives -/

@[simp] theorem lowWord_setResult (a b : Word) : lowWord (setResult a b) = b := by
  rw [setResult, lowWord_natCast, BitVec.ofNat_toNat, BitVec.setWidth_eq]

@[simp] theorem highWord_setResult (a b : Word) : highWord (setResult a b) = 0 :=
  highWord_of_fits b.isLt

/-- An unsuppressed SET stores operand B's value at operand A's location, then clears O (decisions D9, D11). -/
theorem exec_set_runs (a b : Operand) {s : State} (h : s.skip = false) :
    exec (.set a b) s =
      .next (((resolveBoth config a b s).after.writeLoc (resolveBoth config a b s).locA
        (resolveBoth config a b s).valB).setO 0) := by
  have hset : exec (.set a b) s = writing config setResult a b s := writingSet_config a b s
  rw [hset, writing_runs setResult a b h, lowWord_setResult, highWord_setResult]

/-- A small literal as operand B moves nothing, so SET stores it in the state operand A's resolution left. -/
theorem exec_set_lit_runs (a : Operand) (k : BitVec 5) {s : State} (h : s.skip = false) :
    exec (.set a (.lit k)) s =
      .next (((resolve a s).2.writeLoc (resolve a s).1 (k.setWidth 16)).setO 0) :=
  exec_set_runs a (.lit k) h

/-- What any other location holds, writing O leaves unchanged. -/
theorem State.readLoc_setO_other (s : State) {loc : Loc} (v : Word) (h : loc ≠ .o) :
    (s.setO v).readLoc loc = s.readLoc loc := by
  cases loc with
  | o => exact absurd rfl h
  | reg | sp | pc | mem | lit => rfl

/-- Writing O after a store overwrites the stored word only where the store itself went to O. -/
theorem State.readLoc_setO_writeLoc_same (s : State) {loc : Loc} (v w : Word) (hw : loc.writable = true)
    (ho : loc ≠ .o) : ((s.writeLoc loc v).setO w).readLoc loc = v := by
  rw [State.readLoc_setO_other _ w ho, State.readLoc_writeLoc_same s v hw]

/-! ## The obligation -/

/-- Settles O19: a location that is writable and not O holds the literal after SET; O was written a second time, and a
literal's store is dropped. -/
theorem destinationOperandStores : Obligations.DestinationOperandStores := by
  intro a k s hskip
  refine ⟨_, exec_set_lit_runs a k hskip, ?_⟩
  have stored := State.readLoc_setO_writeLoc_same (resolve a s).2 (loc := (resolve a s).1) (k.setWidth 16) 0
  cases a with
  | reg | regInd | regIdx | memAbs | imm | spVal | pcVal => exact stored rfl nofun
  | pop | peek | push => exact ⟨stored rfl nofun, rfl⟩
  | oVal => rfl
  | lit => exact ⟨rfl, rfl, rfl, rfl⟩

end Sys2Proof.Machine
end

section
/-! Decode and encode undo each other: operand code by operand code, then field by field, then word by word, under any
bijective maps (30_encoding.md R50, R55, R57; 00_scope.md R5). -/

namespace Sys2Proof

/-! ## Operand codes -/

/-- The codes from 0x20 on are the small literals. -/
theorem decodeOperandAs_lit (m : RegMap) {c : Nat} (lo : 0x20 ≤ c) :
    decodeOperandAs m c = .lit (BitVec.ofNat 5 (c - 0x20)) := by
  have hlt : ∀ {n}, n ≤ 0x20 → ¬ c < n := by omega
  have hne : ∀ {n}, n < 0x20 → c ≠ n := by omega
  simp [decodeOperandAs, hlt, hne]

/-- Codes 0x18 to 0x1F hold neither a register's number nor a literal. -/
theorem encodeOperandAs_decodeOperandAs_special (m : RegMap) {c : Nat} (lo : 0x18 ≤ c) (hi : c < 0x20) :
    encodeOperandAs m (decodeOperandAs m c) = c := by
  interval_cases c <;> rfl

section AnyMap

variable {m : RegMap} (h : m.wf = true)
include h

theorem encodeOperandAs_lt (x : Operand) : encodeOperandAs m x < 64 := by
  cases x with
  | reg r | regInd r | regIdx r =>
    have := (RegMap.reg_number h r).1
    simp only [encodeOperandAs]
    omega
  | lit k => have := k.isLt; simp only [encodeOperandAs]; omega
  | pop | peek | push | spVal | pcVal | oVal | memAbs | imm => simp [encodeOperandAs]

theorem decodeOperandAs_encodeOperandAs (x : Operand) : decodeOperandAs m (encodeOperandAs m x) = x := by
  cases x with
  | reg r =>
    obtain ⟨hlt, hreg⟩ := RegMap.reg_number h r
    simp [encodeOperandAs, decodeOperandAs, hlt, hreg]
  | regInd r =>
    obtain ⟨hlt, hreg⟩ := RegMap.reg_number h r
    have hhi : 0x08 + m.number r < 0x10 := by omega
    simp [encodeOperandAs, decodeOperandAs, hhi, hreg]
  | regIdx r =>
    obtain ⟨hlt, hreg⟩ := RegMap.reg_number h r
    have hlo : ¬ 0x10 + m.number r < 0x08 := by omega
    have hhi : 0x10 + m.number r < 0x18 := by omega
    simp [encodeOperandAs, decodeOperandAs, hlo, hhi, hreg]
  | lit k =>
    have hlo : ∀ {n}, n ≤ 0x20 → ¬ 0x20 + k.toNat < n := by omega
    have hne : ∀ {n}, n < 0x20 → 0x20 + k.toNat ≠ n := by omega
    simp [encodeOperandAs, decodeOperandAs, hlo, hne]
  | pop | peek | push | spVal | pcVal | oVal | memAbs | imm => rfl

theorem encodeOperandAs_decodeOperandAs {c : Nat} (hc : c < 64) :
    encodeOperandAs m (decodeOperandAs m c) = c := by
  have number_reg {n : Nat} (hn : n < 8) : m.number (m.reg n) = n := RegMap.number_reg h hn
  by_cases hreg : c < 0x08
  · rw [decodeOperandAs, if_pos hreg, encodeOperandAs, number_reg hreg]; omega
  by_cases hind : c < 0x10
  · rw [decodeOperandAs, if_neg hreg, if_pos hind, encodeOperandAs, number_reg (by omega)]; omega
  by_cases hidx : c < 0x18
  · rw [decodeOperandAs, if_neg hreg, if_neg hind, if_pos hidx, encodeOperandAs, number_reg (by omega)]; omega
  by_cases hspecial : c < 0x20
  · exact encodeOperandAs_decodeOperandAs_special m (by omega) hspecial
  · rw [decodeOperandAs_lit m (by omega), encodeOperandAs, BitVec.toNat_ofNat]; omega

end AnyMap

/-! ## The fields of a word -/

theorem fieldO_lt (w : Word) : fieldO w < 16 := Nat.mod_lt _ (by decide)

theorem fieldA_lt (w : Word) : fieldA w < 64 := Nat.mod_lt _ (by decide)

theorem fieldB_lt (w : Word) : fieldB w < 64 := by
  have := w.isLt
  simp only [fieldB]
  omega

/-- The three fields are all of the word. -/
theorem packWord_fields (w : Word) : packWord (fieldO w) (fieldA w) (fieldB w) = w := by
  have := w.isLt
  apply BitVec.eq_of_toNat_eq
  simp only [packWord, fieldO, fieldA, fieldB, BitVec.toNat_ofNat]
  omega

/-! ## The decoder by the word's class, and on a packed word -/

section AnySetting

variable {c : Config} {w : Word}

theorem decodeWordAs_instr (h : fieldO w ≠ 0) :
    decodeWordAs c w =
      (c.opcodeMap.op (fieldO w)).instr (decodeOperandAs c.regMap (fieldA w)) (decodeOperandAs c.regMap (fieldB w)) :=
  if_neg h

theorem decodeWordAs_jsr (h : fieldO w = 0) (ha : fieldA w = 0x01) :
    decodeWordAs c w = .jsr (decodeOperandAs c.regMap (fieldB w)) := by
  rw [decodeWordAs, if_pos h, if_pos ha]

theorem decodeWordAs_illegal (h : fieldO w = 0) (ha : fieldA w ≠ 0x01) :
    decodeWordAs c w = .illegal (BitVec.ofNat 6 (fieldA w)) (BitVec.ofNat 6 (fieldB w)) := by
  rw [decodeWordAs, if_pos h, if_neg ha]

open Laws

theorem decodeWordAs_packBasic (ho : c.opcodeMap.wf = true) (hr : c.regMap.wf = true) (op : BasicOp) (a b : Operand) :
    decodeWordAs c (packBasic c op a b) = op.instr a b := by
  obtain ⟨hpos, hle, hop⟩ := OpcodeMap.op_number ho op
  have hlt : c.opcodeMap.number op < 16 := by omega
  have ha := encodeOperandAs_lt hr a
  have hb := encodeOperandAs_lt hr b
  have hO := fieldO_packWord (encodeOperandAs c.regMap a) (encodeOperandAs c.regMap b) hlt
  rw [packBasic, decodeWordAs_instr (by omega), hO, fieldA_packWord _ hlt ha, fieldB_packWord hlt ha hb, hop,
    decodeOperandAs_encodeOperandAs hr, decodeOperandAs_encodeOperandAs hr]

theorem decodeWordAs_packJsr (hr : c.regMap.wf = true) (a : Operand) :
    decodeWordAs c (encodeWordAs c (.jsr a)) = .jsr a := by
  have ha := encodeOperandAs_lt hr a
  rw [encodeWordAs, decodeWordAs_jsr (fieldO_packWord _ _ (by decide)) (fieldA_packWord _ (by decide) (by decide)),
    fieldB_packWord (by decide) (by decide) ha, decodeOperandAs_encodeOperandAs hr]

theorem decodeWordAs_packIllegal {fa : BitVec 6} (h : fa ≠ 0x01) (fb : BitVec 6) :
    decodeWordAs c (encodeWordAs c (.illegal fa fb)) = .illegal fa fb := by
  have hA := fieldA_packWord fb.toNat (fo := 0x0) (by decide) fa.isLt
  have hne : fa.toNat ≠ 0x01 := fun e => h (BitVec.eq_of_toNat_eq e)
  rw [encodeWordAs, decodeWordAs_illegal (fieldO_packWord _ _ (by decide)) (by rwa [hA]), hA,
    fieldB_packWord (by decide) fa.isLt fb.isLt, BitVec.ofNat_toNat, BitVec.ofNat_toNat, BitVec.setWidth_eq,
    BitVec.setWidth_eq]

end AnySetting

/-! ## The obligations -/

/-- Decoding undoes encoding, one class of instructions after the other. -/
theorem decodeWordAs_encodeWordAs {c : Config} (ho : c.opcodeMap.wf = true) (hr : c.regMap.wf = true) {i : Instr}
    (hi : i.wf = true) : decodeWordAs c (encodeWordAs c i) = i := by
  obtain ⟨op, a, b, rfl⟩ | ⟨a, rfl⟩ | ⟨fa, fb, rfl⟩ := i.shape
  · rw [encodeWordAs_instr, decodeWordAs_packBasic ho hr]
  · exact decodeWordAs_packJsr hr a
  · exact decodeWordAs_packIllegal (by simpa [Instr.wf] using hi) fb

/-- Encoding undoes decoding: each class of words packs the fields it was decoded from. -/
theorem encodeWordAs_decodeWordAs {c : Config} (ho : c.opcodeMap.wf = true) (hr : c.regMap.wf = true) (w : Word) :
    encodeWordAs c (decodeWordAs c w) = w := by
  have hO := fieldO_lt w
  have hA := encodeOperandAs_decodeOperandAs hr (fieldA_lt w)
  have hB := encodeOperandAs_decodeOperandAs hr (fieldB_lt w)
  refine Eq.trans ?_ (packWord_fields w)
  by_cases h : fieldO w = 0
  · by_cases ha : fieldA w = 0x01
    · rw [decodeWordAs_jsr h ha, encodeWordAs, hB, h, ha]
    · rw [decodeWordAs_illegal h ha, encodeWordAs, h, BitVec.toNat_ofNat, BitVec.toNat_ofNat,
        Nat.mod_eq_of_lt (fieldA_lt w), Nat.mod_eq_of_lt (fieldB_lt w)]
  · rw [decodeWordAs_instr h, encodeWordAs_instr, packBasic, hA, hB, OpcodeMap.number_op ho (by omega) (by omega)]

/-- Settles O58: the maps enter only by being bijections. -/
theorem everyMapRoundTrips : Obligations.EveryMapRoundTrips := fun _ ho hr =>
  ⟨fun _ hi => decodeWordAs_encodeWordAs ho hr hi, encodeWordAs_decodeWordAs ho hr⟩

/-! ## The machine's own maps -/

theorem config_opcodeMap_wf : Machine.config.opcodeMap.wf = true := by decide

theorem config_regMap_wf : Machine.config.regMap.wf = true := by decide

@[simp] theorem decodeOperand_encodeOperand (x : Operand) : decodeOperand (encodeOperand x) = x :=
  decodeOperandAs_encodeOperandAs config_regMap_wf x

theorem encodeOperand_decodeOperand {c : Nat} (h : c < 64) : encodeOperand (decodeOperand c) = c :=
  encodeOperandAs_decodeOperandAs config_regMap_wf h

theorem decodeWord_encodeWord {i : Instr} (h : i.wf = true) : decodeWord (encodeWord i) = i :=
  decodeWordAs_encodeWordAs config_opcodeMap_wf config_regMap_wf h

theorem encodeWord_decodeWord (w : Word) : encodeWord (decodeWord w) = w :=
  encodeWordAs_decodeWordAs config_opcodeMap_wf config_regMap_wf w

theorem decodeWord_wf (w : Word) : (decodeWord w).wf = true := by
  by_cases h : fieldO w = 0
  · by_cases ha : fieldA w = 0x01
    · rw [decodeWord_jsr h ha]; rfl
    · have hne : BitVec.ofNat 6 (fieldA w) ≠ 0x01 := fun e => ha <| by
        simpa [BitVec.toNat_ofNat, Nat.mod_eq_of_lt (fieldA_lt w)] using congrArg BitVec.toNat e
      rw [decodeWord_illegal h ha]
      simpa [Instr.wf] using hne
  · rw [decodeWord_instr h, BasicOp.instr_wf]

/-- Settles O5: the two halves are the decoder's well-formedness and the round trip at the machine's maps. -/
theorem encodeOfDecodeIsTheWord : Obligations.EncodeOfDecodeIsTheWord := fun w =>
  ⟨decodeWord_wf w, encodeWord_decodeWord w⟩

/-! ## Sequences of words -/

theorem decode_cons_of_le {w : Word} {ws : List Word} (h : (decodeWord w).trailing ≤ ws.length) :
    decode (w :: ws) =
      .ok (decodeWord w, ws.take (decodeWord w).trailing, ws.drop (decodeWord w).trailing) := by
  rw [decode, if_neg (Nat.not_lt.mpr h)]

theorem decode_cons_of_lt {w : Word} {ws : List Word} (h : ws.length < (decodeWord w).trailing) :
    decode (w :: ws) = .error .missingTrailingWord := by
  rw [decode, if_pos h]

/-- An encoded instruction takes exactly its own trailing words from what follows it. -/
theorem decode_encode_append {i : Instr} (hi : i.wf = true) {trailing : List Word} (h : trailing.length = i.trailing)
    (rest : List Word) : decode (encode i trailing ++ rest) = .ok (i, trailing, rest) := by
  have hle : (decodeWord (encodeWord i)).trailing ≤ (trailing ++ rest).length := by
    rw [decodeWord_encodeWord hi, List.length_append]; omega
  rw [encode, List.cons_append, decode_cons_of_le hle, decodeWord_encodeWord hi, ← h, List.take_left, List.drop_left]

/-- Settles O4: the word's round trip, and the split of the words after it. -/
theorem decodeOfEncodeIsTheInstruction : Obligations.DecodeOfEncodeIsTheInstruction := fun _ hi =>
  ⟨decodeWord_encodeWord hi, fun _ rest h => decode_encode_append hi h rest⟩

/-! ## The classes of words, and their lengths -/

open Claims

theorem BasicOp.instr_ne_illegal (op : BasicOp) (a b : Operand) (fa fb : BitVec 6) : op.instr a b ≠ .illegal fa fb := by
  cases op <;> nofun

theorem BasicOp.instr_ne_jsr (op : BasicOp) (a b x : Operand) : op.instr a b ≠ .jsr x := by
  cases op <;> nofun

theorem illegalWord_iff_fields (w : Word) : illegalWord w ↔ fieldO w = 0 ∧ fieldA w ≠ 0x01 := Iff.rfl

theorem decodeWord_eq_illegal_iff (w : Word) : (∃ fa fb, decodeWord w = .illegal fa fb) ↔ illegalWord w := by
  rw [illegalWord_iff_fields]
  constructor
  · rintro ⟨fa, fb, e⟩
    have h : fieldO w = 0 := by
      by_contra h
      rw [decodeWord_instr h] at e
      exact BasicOp.instr_ne_illegal _ _ _ _ _ e
    refine ⟨h, fun ha => ?_⟩
    rw [decodeWord_jsr h ha] at e
    cases e
  · rintro ⟨h, ha⟩
    exact ⟨_, _, decodeWord_illegal h ha⟩

theorem decodeWord_eq_jsr_iff (w : Word) : (∃ a, decodeWord w = .jsr a) ↔ fieldO w = 0 ∧ fieldA w = 0x01 := by
  constructor
  · rintro ⟨a, e⟩
    have h : fieldO w = 0 := by
      by_contra h
      rw [decodeWord_instr h] at e
      exact BasicOp.instr_ne_jsr _ _ _ _ e
    refine ⟨h, by_contra fun ha => ?_⟩
    rw [decodeWord_illegal h ha] at e
    cases e
  · rintro ⟨h, ha⟩
    exact ⟨_, decodeWord_jsr h ha⟩

/-- Settles O6: the classes are the decoder's two tests, and the low ten bits are the two low fields together. -/
theorem illegalAndCallWordsAreTheNonBasicOnes : Obligations.IllegalAndCallWordsAreTheNonBasicOnes := by
  intro w
  refine ⟨decodeWord_eq_illegal_iff w, (decodeWord_eq_jsr_iff w).trans ?_⟩
  simp only [fieldO, fieldA]
  omega

/-- The operands with a trailing word have codes 0x10 to 0x17, 0x1E and 0x1F (30_encoding.md R54). -/
theorem codeTrailing_encodeOperand (x : Operand) : codeTrailing (encodeOperand x) = x.trailing := by
  cases x with
  | reg r | regInd r | regIdx r => cases r <;> rfl
  | lit k => exact if_neg (by simp only [encodeOperand, encodeOperandAs]; omega)
  | pop | peek | push | spVal | pcVal | oVal | memAbs | imm => rfl

theorem trailing_decodeOperand {c : Nat} (h : c < 64) : (decodeOperand c).trailing = codeTrailing c := by
  rw [← codeTrailing_encodeOperand, encodeOperand_decodeOperand h]

theorem wordTrailing_eq_fields (w : Word) :
    wordTrailing w =
      if fieldO w ≠ 0 then codeTrailing (fieldA w) + codeTrailing (fieldB w)
      else if fieldA w = 0x01 then codeTrailing (fieldB w) else 0 :=
  rfl

theorem trailing_decodeWord (w : Word) : (decodeWord w).trailing = wordTrailing w := by
  have hA := trailing_decodeOperand (fieldA_lt w)
  have hB := trailing_decodeOperand (fieldB_lt w)
  rw [wordTrailing_eq_fields]
  by_cases h : fieldO w = 0
  · rw [if_neg (not_not.mpr h)]
    by_cases ha : fieldA w = 0x01
    · rw [decodeWord_jsr h ha, if_pos ha, ← hB]; rfl
    · rw [decodeWord_illegal h ha, if_neg ha]; rfl
  · rw [decodeWord_instr h, if_pos h, ← hA, ← hB, Instr.trailing, BasicOp.instr_operands]; rfl

/-- Settles O7: the decoder's own length, class by class, is the one the codes ask for. -/
theorem lengthIsKnownFromTheWord : Obligations.LengthIsKnownFromTheWord := by
  intro w ws
  refine ⟨trailing_decodeWord w, ?_⟩
  rw [← trailing_decodeWord]
  constructor
  · rintro ⟨r, hr⟩
    by_contra hlt
    rw [decode_cons_of_lt (Nat.not_le.mp hlt)] at hr
    cases hr
  · intro hle
    exact ⟨_, decode_cons_of_le hle⟩

/-- Settles O11: eight words, each decoded by the tables. -/
theorem writtenOutWordsDecode : Obligations.WrittenOutWordsDecode := by
  unfold Obligations.WrittenOutWordsDecode
  decide

end Sys2Proof
end

section
/-! The Instruction Encoder: an operand's code and trailing word denote the operand, and an instruction's words decode to
it (30_encoding.md R62, R70, R71, R73). -/

namespace Sys2Proof.Machine

open Claims

/-! ## Numbers and trailing words -/

theorem encodeNum_of_le {n : Nat} (h : n ≤ 0xFFFF) : encodeNum (.num n) = .ok (Emitted.plain (BitVec.ofNat 16 n)) :=
  if_pos h

theorem withTrailing_of_le {n : Nat} (h : n ≤ 0xFFFF) (code : Operand) :
    withTrailing code (.num n) = .ok (code, [Emitted.plain (BitVec.ofNat 16 n)]) := by
  rw [withTrailing, encodeNum_of_le h]

theorem toNat_word_of_le {n : Nat} (h : n ≤ 0xFFFF) : (BitVec.ofNat 16 n).toNat = n := by
  rw [BitVec.toNat_ofNat]
  omega

@[simp] theorem encodeAsmOperand_lit_folded {n : Nat} (h : n ≤ 0x1F) :
    encodeAsmOperand (.lit (.num n)) true = .ok (.lit (BitVec.ofNat 5 n), []) :=
  if_pos (by simp [h])

/-! ## One operand -/

/-- What the encoder's code and words say of the operand they were made from (30_encoding.md R73): the words are as
many as the code has, none waits for a label, they read back as the operand, and a number folds exactly up to 0x1F. -/
structure Denotes (x : AsmOperand) (code : Operand) (out : List Emitted) : Prop where
  encoded : encodeAsmOperand x true = .ok (code, out)
  length : out.length = code.trailing
  resolved : ∀ e ∈ out, e.label = none
  reads : classOf code (out.map Emitted.word) = some x
  folds : ∀ n, x = .lit (.num n) → (code.hasTrailing = false ↔ n ≤ 0x1F)

/-- An operand with no number is its code and nothing else. -/
theorem Denotes.of_code {x : AsmOperand} {code : Operand} (encoded : encodeAsmOperand x true = .ok (code, []))
    (reads : classOf code [] = some x) (short : code.hasTrailing = false) (hx : ∀ n, x ≠ .lit (.num n)) :
    Denotes x code [] where
  encoded := encoded
  length := by rw [Operand.trailing, short]; rfl
  resolved := nofun
  reads := reads
  folds n e := absurd e (hx n)

/-- An operand whose number takes the trailing word. -/
theorem Denotes.of_trailing {x : AsmOperand} {code : Operand} {n : Nat} (hn : n ≤ 0xFFFF)
    (encoded : encodeAsmOperand x true = withTrailing code (.num n))
    (reads : classOf code [BitVec.ofNat 16 n] = some x) (long : code.hasTrailing = true)
    (hx : ∀ k, x = .lit (.num k) → 0x1F < k) :
    Denotes x code [Emitted.plain (BitVec.ofNat 16 n)] where
  encoded := by rw [encoded, withTrailing_of_le hn]
  length := by rw [Operand.trailing, long]; rfl
  resolved := by simp [Emitted.plain]
  reads := reads
  folds k e := by simpa [long] using hx k e

/-- Every operand with numbers in range has a code and words that denote it. -/
theorem exists_denotes {x : AsmOperand} (hx : numeric x) : ∃ code out, Denotes x code out := by
  cases x with
  | reg r | regInd r | pop | peek | push | spVal | pcVal | oVal => exact ⟨_, _, .of_code rfl rfl rfl nofun⟩
  | regIdx r n =>
    cases n with
    | label => exact hx.elim
    | num n =>
      exact ⟨.regIdx r, _, .of_trailing hx rfl (by rw [classOf, toNat_word_of_le hx]) rfl nofun⟩
  | memAbs n =>
    cases n with
    | label => exact hx.elim
    | num n => exact ⟨.memAbs, _, .of_trailing hx rfl (by rw [classOf, toNat_word_of_le hx]) rfl nofun⟩
  | str => exact hx.elim
  | lit n =>
    cases n with
    | label => exact hx.elim
    | num n =>
      by_cases h : n ≤ 0x1F
      · have reads : classOf (.lit (BitVec.ofNat 5 n)) [] = some (.lit (.num n)) := by
          rw [classOf, BitVec.toNat_ofNat, Nat.mod_eq_of_lt (by omega)]
        refine ⟨.lit (BitVec.ofNat 5 n), [], encodeAsmOperand_lit_folded h, rfl, nofun, reads, ?_⟩
        rintro k ⟨⟩
        exact iff_of_true rfl h
      · have hlt : 0x1F < n := by omega
        refine ⟨.imm, _, .of_trailing hx (encodeAsmOperand_lit_of_gt hlt true)
          (by rw [classOf, toNat_word_of_le hx]) rfl ?_⟩
        rintro k ⟨⟩
        exact hlt

/-- Settles O8: the code survives encoding and decoding, so it and the words read back as the operand. -/
theorem encodedOperandDenotesTheOperand : Obligations.EncodedOperandDenotesTheOperand := by
  intro x hx
  obtain ⟨code, out, h⟩ := exists_denotes hx
  refine ⟨code, out, h.encoded, h.length, h.resolved, ?_, h.folds⟩
  rw [decodeOperand_encodeOperand]
  exact h.reads

/-! ## Whole instructions -/

theorem encodeBasic_of_ok {xa xb : AsmOperand} {ca cb : Operand} {ta tb : List Emitted}
    (ha : encodeAsmOperand xa true = .ok (ca, ta)) (hb : encodeAsmOperand xb true = .ok (cb, tb)) (op : BasicOp) :
    encodeBasic config op xa xb = .ok (Emitted.plain (encodeWord (op.instr ca cb)) :: (ta ++ tb)) := by
  rw [encodeBasic, ha, hb]
  rfl

theorem encodeNonBasic_of_ok {x : AsmOperand} {c : Operand} {t : List Emitted}
    (h : encodeAsmOperand x true = .ok (c, t)) :
    encodeNonBasic config x = .ok (Emitted.plain (encodeWord (.jsr c)) :: t) := by
  rw [encodeNonBasic, h]
  rfl

/-- An instruction's word followed by emitted words, as many as it takes, decodes to it with those words. -/
theorem decode_emitted {i : Instr} (hi : i.wf = true) {out : List Emitted} (h : out.length = i.trailing)
    (rest : List Word) :
    decode ((Emitted.plain (encodeWord i) :: out).map Emitted.word ++ rest) =
      .ok (i, out.map Emitted.word, rest) :=
  decode_encode_append hi (by rw [List.length_map, h]) rest

/-- Settles O57: each operand's words denote it, and their number is the one the instruction word asks for. -/
theorem encodedInstructionsDecode : Obligations.EncodedInstructionsDecode := by
  intro xa xb rest hxa hxb
  obtain ⟨ca, ta, ha⟩ := exists_denotes hxa
  obtain ⟨cb, tb, hb⟩ := exists_denotes hxb
  refine ⟨ca, cb, ta, tb, ha.encoded, hb.encoded, ha.reads, hb.reads, fun op => ?_, ?_⟩
  · have length : (ta ++ tb).length = (op.instr ca cb).trailing := by
      rw [List.length_append, ha.length, hb.length, Instr.trailing, BasicOp.instr_operands]
      rfl
    exact ⟨_, encodeBasic_of_ok ha.encoded hb.encoded op, decode_emitted (BasicOp.instr_wf op ca cb) length rest⟩
  · exact ⟨_, encodeNonBasic_of_ok ha.encoded, decode_emitted rfl ha.length rest⟩

end Sys2Proof.Machine
end

section
/-! The claims' tables of operand resolution (`locOf`, `moved`, `afterBoth`, `valA`, `valB`) are the model's resolver:
said once, and what resolution leaves unchanged. -/

namespace Sys2Proof.Machine

open Claims

/-! ## One operand -/

theorem resolve_eq (x : Operand) (s : State) : resolve x s = (locOf x s, moved x s) := by cases x <;> rfl

@[simp] theorem resolve_fst (x : Operand) (s : State) : (resolve x s).1 = locOf x s := by rw [resolve_eq]

theorem resolve_snd (x : Operand) (s : State) : (resolve x s).2 = moved x s := by rw [resolve_eq]

@[simp] theorem moved_pc (x : Operand) (s : State) : (moved x s).pc = pcAfter x s.pc := rfl
@[simp] theorem moved_sp (x : Operand) (s : State) : (moved x s).sp = spAfter x s.sp := rfl
@[simp] theorem moved_regs (x : Operand) (s : State) : (moved x s).regs = s.regs := rfl
@[simp] theorem moved_o (x : Operand) (s : State) : (moved x s).o = s.o := rfl
@[simp] theorem moved_skip (x : Operand) (s : State) : (moved x s).skip = s.skip := rfl
@[simp] theorem moved_faulted (x : Operand) (s : State) : (moved x s).faulted = s.faulted := rfl
@[simp] theorem moved_mem (x : Operand) (s : State) : (moved x s).mem = s.mem := rfl
@[simp] theorem moved_obsLo (x : Operand) (s : State) : (moved x s).obsLo = s.obsLo := rfl
@[simp] theorem moved_obsHi (x : Operand) (s : State) : (moved x s).obsHi = s.obsHi := rfl
@[simp] theorem moved_reports (x : Operand) (s : State) : (moved x s).reports = s.reports := rfl
@[simp] theorem moved_reg (x : Operand) (s : State) (r : Reg) : (moved x s).reg r = s.reg r := rfl
@[simp] theorem moved_memRead (x : Operand) (s : State) (a : Word) : (moved x s).memRead a = s.memRead a := rfl

/-! ## Both operands -/

@[simp] theorem afterBoth_pc (a b : Operand) (s : State) : (afterBoth a b s).pc = pcAfter b (pcAfter a s.pc) := rfl
@[simp] theorem afterBoth_sp (a b : Operand) (s : State) : (afterBoth a b s).sp = spAfter b (spAfter a s.sp) := rfl
@[simp] theorem afterBoth_regs (a b : Operand) (s : State) : (afterBoth a b s).regs = s.regs := rfl
@[simp] theorem afterBoth_o (a b : Operand) (s : State) : (afterBoth a b s).o = s.o := rfl
@[simp] theorem afterBoth_skip (a b : Operand) (s : State) : (afterBoth a b s).skip = s.skip := rfl
@[simp] theorem afterBoth_faulted (a b : Operand) (s : State) : (afterBoth a b s).faulted = s.faulted := rfl
@[simp] theorem afterBoth_mem (a b : Operand) (s : State) : (afterBoth a b s).mem = s.mem := rfl
@[simp] theorem afterBoth_obsLo (a b : Operand) (s : State) : (afterBoth a b s).obsLo = s.obsLo := rfl
@[simp] theorem afterBoth_obsHi (a b : Operand) (s : State) : (afterBoth a b s).obsHi = s.obsHi := rfl
@[simp] theorem afterBoth_reports (a b : Operand) (s : State) : (afterBoth a b s).reports = s.reports := rfl
@[simp] theorem afterBoth_reg (a b : Operand) (s : State) (r : Reg) : (afterBoth a b s).reg r = s.reg r := rfl
@[simp] theorem afterBoth_memRead (a b : Operand) (s : State) (x : Word) :
    (afterBoth a b s).memRead x = s.memRead x := rfl

/-- What both operands come to at the default timing, in the claims' terms. -/
theorem resolveBoth_config (a b : Operand) (s : State) :
    resolveBoth config a b s =
      { locA := locOf a s, locB := locOf b (moved a s), valA := valA a b s, valB := valB a b s,
        after := afterBoth a b s } := by
  simp only [resolveBoth, resolve_eq, config_operandReadTiming, valA, valB, afterBoth]

/-- Settles O21: each pair is resolved by the two rows of the table, the second in the SP the first left. -/
theorem stackOperandPairs : Obligations.StackOperandPairs := by
  intro s
  simp [resolve_eq, locOf, spAfter, add_assoc, sub_sub]

end Sys2Proof.Machine
end

section
/-! SET and the ALU instructions: one lemma gives the whole next state from the widened result, and the rest is
arithmetic of the stored word and of O (42_set_and_alu.md R150 to R162). -/

namespace Sys2Proof.Machine

open Claims

/-- An instruction of the family stores the low word of its result at A's location and the high word in O. -/
theorem writes_of_result {op : Operand → Operand → Instr} {result : Word → Word → Int}
    {value overflow : Word → Word → Word}
    (hop : ∀ a b s, exec (op a b) s = writing config result a b s) (low : ∀ a b, lowWord (result a b) = value a b)
    (high : ∀ a b, highWord (result a b) = overflow a b) : Writes op value overflow := by
  intro a b s hskip
  rw [hop, writing_runs result a b hskip, resolveBoth_config, low, high]

/-! ## SET, ADD, SUB, MUL -/

/-- Settles O22: SET's result is operand B, which fits a word. -/
theorem setStoresOperandB : Obligations.SetStoresOperandB :=
  writes_of_result (fun _ _ _ => writingSet_config ..) lowWord_setResult highWord_setResult

theorem addResult_natCast (a b : Word) : addResult a b = ((a.toNat + b.toNat : Nat) : Int) := rfl

theorem lowWord_addResult (a b : Word) : lowWord (addResult a b) = a + b := by
  rw [addResult_natCast, lowWord_natCast, BitVec.add_def]

/-- O is the carry: the sum of two words is below two times 2^16. -/
theorem highWord_addResult (a b : Word) :
    highWord (addResult a b) = if 0x10000 ≤ a.toNat + b.toNat then 1 else 0 := by
  rw [addResult_natCast]
  split_ifs with h
  · have carry : (a.toNat + b.toNat) / 65536 = 1 := by omega
    rw [highWord_natCast, carry]
    rfl
  · exact highWord_of_fits (Nat.not_le.mp h)

/-- Settles O23: the low word of the sum, and its carry. -/
theorem addStoresSumAndCarry : Obligations.AddStoresSumAndCarry :=
  writes_of_result (fun _ _ _ => rfl) lowWord_addResult highWord_addResult

theorem lowWord_subResult (a b : Word) : lowWord (subResult a b) = a - b := by
  have hb := b.isLt
  apply BitVec.eq_of_toNat_eq
  rw [lowWord, subResult, BitVec.toNat_ofInt, BitVec.toNat_sub]
  omega

/-- O is 0xFFFF on a borrow: a negative difference of words is above -2^16. -/
theorem highWord_subResult (a b : Word) :
    highWord (subResult a b) = if a.toNat < b.toNat then 0xFFFF else 0 := by
  have hb := b.isLt
  split_ifs with h
  · exact highWord_of_borrow (by rw [subResult]; omega) (by rw [subResult]; omega)
  · have noBorrow : subResult a b = ((a.toNat - b.toNat : Nat) : Int) := by rw [subResult]; omega
    rw [noBorrow]
    exact highWord_of_fits (by omega)

/-- Settles O24: the low word of the difference, and its borrow. -/
theorem subStoresDifferenceAndBorrow : Obligations.SubStoresDifferenceAndBorrow :=
  writes_of_result (fun _ _ _ => rfl) lowWord_subResult highWord_subResult

theorem mulResult_natCast (a b : Word) : mulResult a b = ((a.toNat * b.toNat : Nat) : Int) := rfl

theorem lowWord_mulResult (a b : Word) : lowWord (mulResult a b) = a * b := by
  rw [mulResult_natCast, lowWord_natCast, BitVec.ofNat_mul, BitVec.ofNat_toNat, BitVec.ofNat_toNat,
    BitVec.setWidth_eq, BitVec.setWidth_eq]

theorem highWord_mulResult (a b : Word) :
    highWord (mulResult a b) = BitVec.ofNat 16 (a.toNat * b.toNat / 0x10000) := by
  rw [mulResult_natCast, highWord_natCast]

/-- Settles O25: the two words of the product. -/
theorem mulStoresProductLowAndHigh : Obligations.MulStoresProductLowAndHigh :=
  writes_of_result (fun _ _ _ => rfl) lowWord_mulResult highWord_mulResult

/-! ## DIV and MOD -/

theorem toNat_eq_zero_iff (b : Word) : b.toNat = 0 ↔ b = 0 := (BitVec.toNat_eq (y := 0)).symm

/-- The low word of a result that is 0 when dividing by 0. -/
theorem lowWord_ite_zero (b : Word) (n : Nat) :
    lowWord (if b.toNat = 0 then 0 else (n : Int)) = if b = 0 then 0 else BitVec.ofNat 16 n := by
  by_cases h : b = 0
  · rw [if_pos ((toNat_eq_zero_iff b).mpr h), if_pos h]; rfl
  · rw [if_neg (mt (toNat_eq_zero_iff b).mp h), if_neg h, lowWord_natCast]

/-- A result that is 0 when dividing by 0, and fits a word otherwise, leaves 0 in O. -/
theorem highWord_ite_zero (b : Word) {n : Nat} (h : n < 65536) :
    highWord (if b.toNat = 0 then 0 else (n : Int)) = 0 := by
  split_ifs
  · rfl
  · exact highWord_of_fits h

/-- Settles O26: a quotient is at most the dividend, so it fits a word. -/
theorem divStoresQuotient : Obligations.DivStoresQuotient :=
  writes_of_result (fun _ _ _ => rfl) (fun _ b => lowWord_ite_zero b _)
    (fun a b => highWord_ite_zero b (Nat.lt_of_le_of_lt (Nat.div_le_self ..) a.isLt))

/-- Settles O27: a remainder is at most the dividend, so it fits a word. -/
theorem modStoresRemainder : Obligations.ModStoresRemainder :=
  writes_of_result (fun _ _ _ => rfl) (fun _ b => lowWord_ite_zero b _)
    (fun a b => highWord_ite_zero b (Nat.lt_of_le_of_lt (Nat.mod_le ..) a.isLt))

/-! ## The shifts -/

theorem shlResult_config (a b : Word) : shlResult config a b = ((a.toNat <<< b.toNat : Nat) : Int) := rfl

theorem shrResult_config (a b : Word) : shrResult config a b = ((a.toNat >>> b.toNat : Nat) : Int) := rfl

theorem ofNat_shiftLeft (a : Word) (n : Nat) : BitVec.ofNat 16 (a.toNat <<< n) = a <<< n := rfl

theorem lowWord_shlResult (a b : Word) :
    lowWord (shlResult config a b) = if b.toNat < 16 then a <<< b.toNat else 0 := by
  rw [shlResult_config, lowWord_natCast, ofNat_shiftLeft]
  split_ifs with h
  · rfl
  · exact BitVec.shiftLeft_eq_zero (Nat.not_lt.mp h)

/-- Up to a count of 16 the high word of the shifted number is its top bits. -/
theorem shiftLeft_div_of_le (a : Nat) {n : Nat} (h : n ≤ 16) : (a <<< n) / 65536 = a >>> (16 - n) := by
  have factor : 65536 = 2 ^ n * 2 ^ (16 - n) := by rw [← pow_add, Nat.add_sub_cancel' h]; rfl
  rw [Nat.shiftLeft_eq, Nat.shiftRight_eq_div_pow, factor, ← Nat.div_div_eq_div_mul,
    Nat.mul_div_cancel _ (Nat.two_pow_pos n)]

/-- From a count of 16 on the high word is the number shifted by what is left of the count. -/
theorem shiftLeft_div_of_ge (a : Nat) {n : Nat} (h : 16 ≤ n) : (a <<< n) / 65536 = a <<< (n - 16) := by
  have factor : 2 ^ n = 2 ^ (n - 16) * 65536 := by
    rw [show (65536 : Nat) = 2 ^ 16 from rfl, ← pow_add, Nat.sub_add_cancel h]
  rw [Nat.shiftLeft_eq, Nat.shiftLeft_eq, factor, ← mul_assoc, Nat.mul_div_cancel _ (by decide)]

theorem highWord_shlResult (a b : Word) :
    highWord (shlResult config a b) =
      if b.toNat ≤ 16 then a >>> (16 - b.toNat) else if b.toNat < 32 then a <<< (b.toNat - 16) else 0 := by
  rw [shlResult_config, highWord_natCast]
  split_ifs with low mid
  · rw [shiftLeft_div_of_le _ low, ← BitVec.toNat_ushiftRight, BitVec.ofNat_toNat, BitVec.setWidth_eq]
  · rw [shiftLeft_div_of_ge _ (by omega), ofNat_shiftLeft]
  · rw [shiftLeft_div_of_ge _ (by omega), ofNat_shiftLeft]
    exact BitVec.shiftLeft_eq_zero (by omega)

/-- Settles O28: the three ranges of the count. -/
theorem shlStoresShiftedWordAndBitsOut : Obligations.ShlStoresShiftedWordAndBitsOut :=
  writes_of_result (fun _ _ _ => rfl) lowWord_shlResult highWord_shlResult

theorem shrResult_word (a b : Word) : shrResult config a b = ((a >>> b.toNat).toNat : Int) := by
  rw [shrResult_config, BitVec.toNat_ushiftRight]

/-! ## Results that are a word: SHR, AND, BOR, XOR -/

@[simp] theorem lowWord_toNat (w : Word) : lowWord (w.toNat : Int) = w := by
  rw [lowWord_natCast, BitVec.ofNat_toNat, BitVec.setWidth_eq]

@[simp] theorem highWord_toNat (w : Word) : highWord (w.toNat : Int) = 0 := highWord_of_fits w.isLt

theorem lowWord_shrResult (a b : Word) :
    lowWord (shrResult config a b) = if b.toNat < 16 then a >>> b.toNat else 0 := by
  rw [shrResult_word, lowWord_toNat]
  split_ifs with h
  · rfl
  · exact BitVec.ushiftRight_eq_zero (Nat.not_lt.mp h)

/-- Settles O29: a word shifted right is a word. -/
theorem shrStoresShiftedWord : Obligations.ShrStoresShiftedWord :=
  writes_of_result (fun _ _ _ => writingShr_config ..) lowWord_shrResult
    (fun a b => by rw [shrResult_word, highWord_toNat])

/-- Settles O30: the bitwise and of words is a word. -/
theorem andStoresBitwiseAnd : Obligations.AndStoresBitwiseAnd :=
  writes_of_result (fun _ _ _ => rfl) (fun _ _ => lowWord_toNat _) (fun _ _ => highWord_toNat _)

/-- Settles O31: the bitwise or of words is a word. -/
theorem borStoresBitwiseOr : Obligations.BorStoresBitwiseOr :=
  writes_of_result (fun _ _ _ => rfl) (fun _ _ => lowWord_toNat _) (fun _ _ => highWord_toNat _)

/-- Settles O32: the bitwise exclusive or of words is a word. -/
theorem xorStoresBitwiseXor : Obligations.XorStoresBitwiseXor :=
  writes_of_result (fun _ _ _ => rfl) (fun _ _ => lowWord_toNat _) (fun _ _ => highWord_toNat _)

/-! ## The family as a whole -/

/-- Every instruction that writes operand A stores the word of the spec's table, and some word in O. -/
theorem writes_of_mem_storedValues {p : (Operand → Operand → Instr) × (Word → Word → Word)} (h : p ∈ storedValues) :
    ∃ overflow, Writes p.1 p.2 overflow := by
  simp only [storedValues, List.mem_cons, List.not_mem_nil, or_false] at h
  obtain rfl | rfl | rfl | rfl | rfl | rfl | rfl | rfl | rfl | rfl | rfl := h
  · exact ⟨_, setStoresOperandB⟩
  · exact ⟨_, addStoresSumAndCarry⟩
  · exact ⟨_, subStoresDifferenceAndBorrow⟩
  · exact ⟨_, mulStoresProductLowAndHigh⟩
  · simp only [BitVec.udiv_def]; exact ⟨_, divStoresQuotient⟩
  · simp only [BitVec.umod_def]; exact ⟨_, modStoresRemainder⟩
  · exact ⟨_, shlStoresShiftedWordAndBitsOut⟩
  · exact ⟨_, shrStoresShiftedWord⟩
  · exact ⟨_, andStoresBitwiseAnd⟩
  · exact ⟨_, borStoresBitwiseOr⟩
  · exact ⟨_, xorStoresBitwiseXor⟩

theorem map_fst_storedValues : storedValues.map Prod.fst = writingOps := rfl

theorem writes_of_mem_writingOps {op : Operand → Operand → Instr} (h : op ∈ writingOps) :
    ∃ value overflow, Writes op value overflow := by
  rw [← map_fst_storedValues, List.mem_map] at h
  obtain ⟨p, hp, rfl⟩ := h
  exact ⟨p.2, writes_of_mem_storedValues hp⟩

end Sys2Proof.Machine
end

section
/-! The conditional instructions (43_conditional.md R170 to R175). -/

namespace Sys2Proof.Machine

open Claims

/-- A conditional goes on when its test holds and sets SKIP when it does not. -/
theorem skips_of_test {op : Operand → Operand → Instr} {test : Word → Word → Bool} {holds : Word → Word → Prop}
    (hop : ∀ a b s, exec (op a b) s = conditional config test a b s)
    (iff : ∀ a b, test a b = true ↔ holds a b) : Skips op holds := by
  intro a b s hskip
  rw [hop, conditional_runs test a b hskip, resolveBoth_config, ← iff]
  exact ⟨fun h => by rw [if_pos h], fun h => by rw [if_neg h]⟩

/-- Settles O34: IFE's test is equality. -/
theorem ifeSkipsUnlessEqual : Obligations.IfeSkipsUnlessEqual :=
  skips_of_test (fun _ _ _ => rfl) (fun _ _ => beq_iff_eq)

/-- Settles O35: IFN's test is inequality. -/
theorem ifnSkipsUnlessDifferent : Obligations.IfnSkipsUnlessDifferent :=
  skips_of_test (fun _ _ _ => rfl) (fun _ _ => bne_iff_ne)

/-- Settles O36: IFG's test compares the numbers. -/
theorem ifgSkipsUnlessGreater : Obligations.IfgSkipsUnlessGreater :=
  skips_of_test (fun _ _ _ => rfl) (fun _ _ => decide_eq_true_iff)

/-- IFB's condition on words, as R175 writes it. -/
theorem ifb_skips : Skips .ifb (fun a b => a &&& b ≠ 0) :=
  skips_of_test (fun _ _ _ => rfl) (fun _ _ => bne_iff_ne)

/-- Two words have a common set bit exactly when their bitwise and is not zero. -/
theorem and_ne_zero_iff_common_bit (a b : Word) :
    a &&& b ≠ 0 ↔ ∃ n, a.getLsbD n = true ∧ b.getLsbD n = true := by
  constructor
  · intro h
    by_contra none
    refine h (BitVec.eq_of_getLsbD_eq fun n _ => ?_)
    simpa [BitVec.getLsbD_and] using not_exists.mp none n
  · rintro ⟨n, ha, hb⟩ h
    have zero : (a &&& b).getLsbD n = false := by rw [h]; simp
    rw [BitVec.getLsbD_and, ha, hb] at zero
    cases zero

/-- Settles O37: IFB's test on words, bit by bit. -/
theorem ifbSkipsUnlessCommonBit : Obligations.IfbSkipsUnlessCommonBit := by
  simpa only [Obligations.IfbSkipsUnlessCommonBit, ← and_ne_zero_iff_common_bit] using ifb_skips

/-! ## The family as a whole -/

theorem skips_of_mem_conditions {p : (Operand → Operand → Instr) × (Word → Word → Prop)} (h : p ∈ conditions) :
    Skips p.1 p.2 := by
  simp only [conditions, List.mem_cons, List.not_mem_nil, or_false] at h
  obtain rfl | rfl | rfl | rfl := h
  · exact ifeSkipsUnlessEqual
  · exact ifnSkipsUnlessDifferent
  · exact ifgSkipsUnlessGreater
  · exact ifb_skips

theorem map_fst_conditions : conditions.map Prod.fst = conditionalOps := rfl

theorem skips_of_mem_conditionalOps {op : Operand → Operand → Instr} (h : op ∈ conditionalOps) :
    ∃ holds, Skips op holds := by
  rw [← map_fst_conditions, List.mem_map] at h
  obtain ⟨p, hp, rfl⟩ := h
  exact ⟨p.2, skips_of_mem_conditions hp⟩

end Sys2Proof.Machine
end

section
/-! What an instruction can do, said once: `Effect` lists the ways the machine executes an instruction, every execution
is one of them, and the machine's invariant is kept by each (41_step_engine.md R130 to R138). -/

namespace Sys2Proof.Machine

open Claims

/-! ## The families of instructions -/

/-- The instructions that write operand A and the conditionals are together the basic ones. -/
theorem writingOps_append_conditionalOps : writingOps ++ conditionalOps = BasicOp.all.map BasicOp.instr := rfl

theorem instr_mem_families (x : BasicOp) : x.instr ∈ writingOps ∨ x.instr ∈ conditionalOps := by
  rw [← List.mem_append, writingOps_append_conditionalOps]
  exact List.mem_map_of_mem (BasicOp.mem_all x)

theorem exists_basicOp {op : Operand → Operand → Instr} (h : op ∈ writingOps ++ conditionalOps) :
    ∃ x, BasicOp.instr x = op := by
  rw [writingOps_append_conditionalOps] at h
  obtain ⟨x, -, hx⟩ := List.mem_map.mp h
  exact ⟨x, hx⟩

/-! ## Suppression -/

/-- The state after a suppressed instruction: PC past its trailing words, SP moved by its stack operands, SKIP clear
(41_step_engine.md R138). -/
def passed (i : Instr) (s : State) : State :=
  { s with
    pc := i.operands.foldl (fun w x => pcAfter x w) s.pc
    sp := i.operands.foldl (fun w x => spAfter x w) s.sp
    skip := false }

theorem passed_instr (op : BasicOp) (a b : Operand) (s : State) :
    passed (op.instr a b) s = (afterBoth a b s).setSkip false := by
  rw [passed, BasicOp.instr_operands]
  rfl

theorem passed_jsr (a : Operand) (s : State) : passed (.jsr a) s = (moved a s).setSkip false := rfl

/-- Every basic instruction takes the common path, which ends after resolution. -/
theorem exec_instr_suppressed (op : BasicOp) (a b : Operand) {s : State} (h : s.skip = true) :
    exec (op.instr a b) s = .next ((afterBoth a b s).setSkip false) := by
  have both : (resolve b (resolve a s).2).2 = afterBoth a b s := by rw [resolve_snd, resolve_snd, afterBoth]
  rw [← both]
  cases op with
  | set | add | sub | mul | div | mod | shl | shr | and | bor | xor => exact writing_suppressed _ a b h
  | ife | ifn | ifg | ifb => exact conditional_suppressed _ a b h

theorem exec_jsr_suppressed (a : Operand) {s : State} (h : s.skip = true) :
    exec (.jsr a) s = .next ((moved a s).setSkip false) := by
  rw [exec, execJsr_eq, if_pos h, resolve_snd]

theorem exec_suppressed {i : Instr} {s : State} (h : s.skip = true) (legal : ∀ fa fb, i ≠ .illegal fa fb) :
    exec i s = .next (passed i s) := by
  obtain ⟨op, a, b, rfl⟩ | ⟨a, rfl⟩ | ⟨fa, fb, rfl⟩ := i.shape
  · rw [passed_instr, exec_instr_suppressed op a b h]
  · rw [passed_jsr, exec_jsr_suppressed a h]
  · exact absurd rfl (legal fa fb)

/-- Settles O42: a legal instruction is passed over, and `passed` is the state the statement writes out. -/
theorem suppressedInstructionOnlyMovesPcAndSp : Obligations.SuppressedInstructionOnlyMovesPcAndSp :=
  fun _ _ => exec_suppressed

/-! ## The subroutine call -/

/-- The state after an unsuppressed call: the next address pushed, and PC at the operand's value, read before the push
(44_nonbasic.md R180). -/
def called (a : Operand) (s : State) : State :=
  ((moved a s).pushWord (moved a s).pc).setPc ((moved a s).readLoc (locOf a s))

theorem exec_jsr_runs (a : Operand) {s : State} (h : s.skip = false) : exec (.jsr a) s = .next (called a s) := by
  rw [exec, execJsr_eq, if_neg (by simp [h]), resolve_eq, called]

theorem exec_illegal (fa fb : BitVec 6) (s : State) : exec (.illegal fa fb) s = .next s.raiseIllegalOpcode :=
  execIllegal_eq fa fb s

/-- Settles O15: taking the exception sets the latch, the only field it writes. -/
theorem illegalOnlySetsTheLatch : Obligations.IllegalOnlySetsTheLatch := exec_illegal

/-! ## The ways an instruction executes -/

/-- `Effect i s t`: from the state `s` after the fetch, the instruction `i` can leave `t`. -/
inductive Effect (i : Instr) (s : State) : State → Prop
  /-- SKIP was set: the instruction is passed over. -/
  | suppressed (skip : s.skip = true) (legal : ∀ fa fb, i ≠ .illegal fa fb) : Effect i s (passed i s)
  /-- SET or an ALU instruction stores a word at A's location and another in O. -/
  | writes {op : Operand → Operand → Instr} {a b : Operand} (skip : s.skip = false) (mem : op ∈ writingOps)
      (eq : i = op a b) (value overflow : Word) :
      Effect i s (((afterBoth a b s).writeLoc (locOf a s) value).setO overflow)
  /-- A conditional whose condition holds. -/
  | goesOn {op : Operand → Operand → Instr} {a b : Operand} (skip : s.skip = false) (mem : op ∈ conditionalOps)
      (eq : i = op a b) : Effect i s (afterBoth a b s)
  /-- A conditional whose condition does not hold. -/
  | skips {op : Operand → Operand → Instr} {a b : Operand} (skip : s.skip = false) (mem : op ∈ conditionalOps)
      (eq : i = op a b) : Effect i s ((afterBoth a b s).setSkip true)
  /-- The subroutine call. -/
  | calls {a : Operand} (skip : s.skip = false) (eq : i = .jsr a) : Effect i s (called a s)
  /-- An illegal word, suppressed or not. -/
  | faults {fa fb : BitVec 6} (eq : i = .illegal fa fb) : Effect i s s.raiseIllegalOpcode

/-- Every instruction answers a next state, and reaches it in one of the ways listed. -/
theorem exec_effect (i : Instr) (s : State) : ∃ t, exec i s = .next t ∧ Effect i s t := by
  by_cases illegal : ∃ fa fb, i = .illegal fa fb
  · obtain ⟨fa, fb, rfl⟩ := illegal
    exact ⟨_, exec_illegal fa fb s, .faults rfl⟩
  have legal : ∀ fa fb, i ≠ .illegal fa fb := fun fa fb e => illegal ⟨fa, fb, e⟩
  cases skip : s.skip with
  | true => exact ⟨_, exec_suppressed skip legal, .suppressed skip legal⟩
  | false =>
    obtain ⟨op, a, b, rfl⟩ | ⟨a, rfl⟩ | ⟨fa, fb, rfl⟩ := i.shape
    · obtain mem | mem := instr_mem_families op
      · obtain ⟨value, overflow, runs⟩ := writes_of_mem_writingOps mem
        exact ⟨_, runs a b s skip, .writes skip mem rfl _ _⟩
      · obtain ⟨holds, runs⟩ := skips_of_mem_conditionalOps mem
        obtain ⟨yes, no⟩ := runs a b s skip
        by_cases cond : holds (valA a b s) (valB a b s)
        · exact ⟨_, yes cond, .goesOn skip mem rfl⟩
        · exact ⟨_, no cond, .skips skip mem rfl⟩
    · exact ⟨_, exec_jsr_runs a skip, .calls skip rfl⟩
    · exact absurd rfl (legal fa fb)

theorem effect_of_exec {i : Instr} {s t : State} (h : exec i s = .next t) : Effect i s t := by
  obtain ⟨u, hu, effect⟩ := exec_effect i s
  rw [h] at hu
  cases hu
  exact effect

/-- A step that answers a next state ran the word at PC in one of the ways listed. -/
theorem effect_of_step {s t : State} (h : step s = .next t) :
    s.faulted = false ∧ Effect (decodeWord (s.memRead s.pc)) (s.setPc (s.pc + 1)) t := by
  obtain ⟨running, runs⟩ := step_next h
  exact ⟨running, effect_of_exec runs⟩

/-! ## The invariant -/

/-- A store reports its own address, and that only in the observer's range. -/
theorem State.Inv.memWrite {s : State} (h : s.Inv) (addr v : Word) : (s.memWrite addr v).Inv := by
  obtain ⟨canonical, inRange⟩ := h
  refine ⟨State.memWrite_wf addr v canonical, fun r hr => ?_⟩
  rw [State.observed_memWrite]
  rw [State.memWrite_reports] at hr
  split_ifs at hr with here
  · obtain old | new := List.mem_append.mp hr
    · exact inRange r old
    · rw [List.mem_singleton.mp new]
      exact here
  · exact inRange r hr

theorem State.Inv.writeLoc {s : State} (h : s.Inv) (loc : Loc) (v : Word) : (s.writeLoc loc v).Inv := by
  cases loc with
  | mem addr => exact h.memWrite addr v
  | reg | sp | pc | o | lit => exact h

/-- Only a store touches what the invariant is about. -/
theorem Effect.keeps_inv {i : Instr} {s t : State} (e : Effect i s t) (h : s.Inv) : t.Inv := by
  cases e with
  | suppressed | goesOn | skips | faults => exact h
  | @writes _ a b _ _ _ value _ =>
    have after : (afterBoth a b s).Inv := h
    exact after.writeLoc (locOf a s) value
  | @calls a =>
    have after : ((moved a s).setSp ((moved a s).sp - 1)).Inv := h
    exact after.memWrite _ _

/-- Settles O3: the fetch moves PC only, and every effect keeps the invariant. -/
theorem stepKeepsInvariant : Obligations.StepKeepsInvariant := by
  intro s t inv h
  obtain ⟨-, effect⟩ := effect_of_step h
  have fetched : (s.setPc (s.pc + 1)).Inv := inv
  exact effect.keeps_inv fetched

end Sys2Proof.Machine
end

section
/-! What the instructions leave unchanged (42_set_and_alu.md, 43_conditional.md R170, 44_nonbasic.md R180): a store to a
location leaves every other place alone, and each family's frame follows from its next state. -/

namespace Sys2Proof.Machine

open Claims

/-! ## A store to a location -/

section Store

variable (s : State) {loc : Loc} (v : Word)

theorem State.writeLoc_reg_other {r : Reg} (h : loc ≠ .reg r) : (s.writeLoc loc v).reg r = s.reg r := by
  cases loc with
  | reg q => exact State.reg_setReg_other s v fun e => h (e ▸ rfl)
  | sp | pc | o | mem | lit => rfl

theorem State.writeLoc_sp_other (h : loc ≠ .sp) : (s.writeLoc loc v).sp = s.sp := by
  cases loc with
  | sp => exact absurd rfl h
  | reg | pc | o | mem | lit => rfl

theorem State.writeLoc_pc_other (h : loc ≠ .pc) : (s.writeLoc loc v).pc = s.pc := by
  cases loc with
  | pc => exact absurd rfl h
  | reg | sp | o | mem | lit => rfl

theorem State.writeLoc_memRead_other {x : Word} (h : loc ≠ .mem x) : (s.writeLoc loc v).memRead x = s.memRead x := by
  cases loc with
  | mem a => exact State.memRead_memWrite_other s v fun e => h (e ▸ rfl)
  | reg | sp | pc | o | lit => rfl

theorem State.writeLoc_reports_of_not_mem (h : ∀ x, loc ≠ .mem x) : (s.writeLoc loc v).reports = s.reports := by
  cases loc with
  | mem a => exact absurd rfl (h a)
  | reg | sp | pc | o | lit => rfl

end Store

/-! ## The operands that name a register, SP or PC -/

theorem locOf_eq_reg_iff (a : Operand) (s : State) (r : Reg) : locOf a s = .reg r ↔ a = .reg r := by
  cases a <;> simp [locOf]

theorem locOf_eq_sp_iff (a : Operand) (s : State) : locOf a s = .sp ↔ a = .spVal := by cases a <;> simp [locOf]

theorem locOf_eq_pc_iff (a : Operand) (s : State) : locOf a s = .pc ↔ a = .pcVal := by cases a <;> simp [locOf]

/-! ## SET, the ALU instructions and the conditionals -/

/-- Settles O33: suppressed nothing but PC, SP and SKIP moves; unsuppressed the store goes to A's location only. -/
theorem writingInstructionsFrame : Obligations.WritingInstructionsFrame := by
  intro op mem a b s t h
  cases skip : s.skip with
  | true =>
    obtain ⟨x, rfl⟩ := exists_basicOp (List.mem_append_left _ mem)
    cases (exec_instr_suppressed x a b skip).symm.trans h
    simp
  | false =>
    obtain ⟨value, overflow, runs⟩ := writes_of_mem_writingOps mem
    cases (runs a b s skip).symm.trans h
    simp only [resolve_fst, Bool.false_eq_true, false_or, false_implies, true_and]
    refine ⟨fun r hr => ?_, fun hsp => ?_, fun hpc => ?_, ?_, ?_, ?_, ?_, fun x hx => ?_, fun hx => ?_⟩
    · exact State.writeLoc_reg_other _ _ (mt (locOf_eq_reg_iff a s r).mp hr)
    · exact State.writeLoc_sp_other _ _ (mt (locOf_eq_sp_iff a s).mp hsp)
    · exact State.writeLoc_pc_other _ _ (mt (locOf_eq_pc_iff a s).mp hpc)
    · exact (State.writeLoc_skip ..).trans skip
    · exact State.writeLoc_faulted ..
    · exact State.writeLoc_obsLo ..
    · exact State.writeLoc_obsHi ..
    · exact State.writeLoc_memRead_other _ _ hx
    · exact State.writeLoc_reports_of_not_mem _ _ hx

/-- Settles O38: suppressed or not, holding or not, a conditional leaves the resolved state but for SKIP. -/
theorem conditionalInstructionsFrame : Obligations.ConditionalInstructionsFrame := by
  intro op mem a b s t h
  have resolved : ∃ k, t = (afterBoth a b s).setSkip k := by
    cases skip : s.skip with
    | true =>
      obtain ⟨x, rfl⟩ := exists_basicOp (List.mem_append_right _ mem)
      cases (exec_instr_suppressed x a b skip).symm.trans h
      exact ⟨_, rfl⟩
    | false =>
      obtain ⟨holds, runs⟩ := skips_of_mem_conditionalOps mem
      obtain ⟨yes, no⟩ := runs a b s skip
      by_cases cond : holds (valA a b s) (valB a b s)
      · cases (yes cond).symm.trans h
        exact ⟨(afterBoth a b s).skip, rfl⟩
      · cases (no cond).symm.trans h
        exact ⟨_, rfl⟩
  obtain ⟨k, rfl⟩ := resolved
  exact ⟨rfl, rfl, rfl, rfl, rfl, rfl, rfl, rfl, rfl⟩

/-! ## The subroutine call -/

theorem called_pc (a : Operand) (s : State) : (called a s).pc = (moved a s).readLoc (locOf a s) := rfl

/-- The word pushed is the address of the next instruction. -/
theorem called_memRead_top (a : Operand) (s : State) :
    (called a s).memRead (spAfter a s.sp - 1) = pcAfter a s.pc :=
  State.memRead_memWrite_same ..

theorem called_memRead_other (a : Operand) (s : State) {x : Word} (h : x ≠ spAfter a s.sp - 1) :
    (called a s).memRead x = s.memRead x :=
  State.memRead_memWrite_other _ _ h

/-- Settles O39: `called` is the state the statement writes out. -/
theorem jsrPushesReturnAddressAndJumps : Obligations.JsrPushesReturnAddressAndJumps := fun a _ skip =>
  exec_jsr_runs a skip

/-- Settles O40: each row is the call's next state at that operand. -/
theorem jsrCornerCases : Obligations.JsrCornerCases := by
  intro s skip
  have runs (a : Operand) : exec (.jsr a) s = .next (called a s) := exec_jsr_runs a skip
  have pushed (a : Operand) := called_memRead_top a s
  have back : s.sp + 1 - 1 = s.sp := add_sub_cancel_right ..
  have twice : s.sp - 1 - 1 = s.sp - 2 := by rw [sub_sub]; rfl
  refine ⟨fun k => ?lit, fun r => ?reg, ?pop, ?peek, ?push, ?sp, ?pc, ?o, ?imm⟩
  case lit => exact ⟨_, runs (.lit k), rfl, rfl, pushed (.lit k)⟩
  case reg => exact ⟨_, runs (.reg r), rfl, rfl, pushed (.reg r)⟩
  case pop => exact ⟨_, runs .pop, rfl, back, back ▸ pushed .pop⟩
  case peek => exact ⟨_, runs .peek, rfl, rfl, pushed .peek⟩
  case push => exact ⟨_, runs .push, rfl, twice, twice ▸ pushed .push⟩
  case sp => exact ⟨_, runs .spVal, rfl, rfl, pushed .spVal⟩
  case pc => exact ⟨_, runs .pcVal, rfl, rfl, pushed .pcVal⟩
  case o => exact ⟨_, runs .oVal, rfl, rfl, pushed .oVal, rfl⟩
  case imm => exact ⟨_, runs .imm, rfl, rfl, pushed .imm⟩

/-- Settles O41: suppressed the call only resolves; unsuppressed it stores one word, at the new top of stack. -/
theorem jsrFrame : Obligations.JsrFrame := by
  intro a s t h
  rw [resolve_snd]
  cases skip : s.skip with
  | true =>
    cases (exec_jsr_suppressed a skip).symm.trans h
    simp
  | false =>
    cases (exec_jsr_runs a skip).symm.trans h
    simp only [Bool.false_eq_true, false_or, false_implies, and_true]
    exact ⟨rfl, rfl, skip, rfl, rfl, rfl, fun x => called_memRead_other a s⟩

/-! ## Operands as sources -/

/-- Settles O18: the store to the register holds operand B's value, class by class. -/
theorem sourceOperandValues : Obligations.SourceOperandValues := by
  intro r b s skip
  refine ⟨_, setStoresOperandB (.reg r) b s skip, ?_, rfl, rfl⟩
  refine (State.reg_setReg_same ..).trans ?_
  cases b with
  | lit k => exact (BitVec.ofNat_toNat 16 k).symm
  | reg | regInd | regIdx | pop | peek | push | spVal | pcVal | oVal | memAbs | imm => rfl

/-- Settles O20: the sum is of the values both read in the state after both operands. -/
theorem operandASeesTheMovesOfOperandB : Obligations.OperandASeesTheMovesOfOperandB := fun s skip =>
  ⟨⟨_, addStoresSumAndCarry .spVal .pop s skip, rfl⟩, ⟨_, addStoresSumAndCarry .spVal .push s skip, rfl⟩,
    ⟨_, addStoresSumAndCarry .pcVal .imm s skip, rfl⟩⟩

end Sys2Proof.Machine
end

section
/-! What one step can change (41_step_engine.md, 60_exceptions.md): the fault latch, SKIP, the registers and O, each from
the list of effects. -/

namespace Sys2Proof.Machine

open Claims

/-! ## The fault latch -/

theorem decodeWord_ne_illegal {w : Word} (h : ¬ illegalWord w) (fa fb : BitVec 6) : decodeWord w ≠ .illegal fa fb :=
  fun e => h ((decodeWord_eq_illegal_iff w).mp ⟨fa, fb, e⟩)

/-- An illegal word at PC sets the latch in the state the fetch left. -/
theorem step_illegalWord {s : State} (running : s.faulted = false) (h : illegalWord (s.memRead s.pc)) :
    step s = .next { s with pc := s.pc + 1, faulted := true } := by
  obtain ⟨fa, fb, e⟩ := (decodeWord_eq_illegal_iff _).mpr h
  rw [step_runs running, fetchWord_eq, e, exec_illegal]
  rfl

/-- Only an illegal word sets the latch. -/
theorem Effect.faulted_eq {i : Instr} {s t : State} (e : Effect i s t) (legal : ∀ fa fb, i ≠ .illegal fa fb) :
    t.faulted = s.faulted := by
  cases e with
  | suppressed | goesOn | skips | calls => rfl
  | writes => exact State.writeLoc_faulted ..
  | faults eq => exact absurd eq (legal _ _)

/-- A running engine's step answers a next state, reached by an effect of the word at PC. -/
theorem exists_step {s : State} (running : s.faulted = false) :
    ∃ t, step s = .next t ∧ Effect (decodeWord (s.memRead s.pc)) (s.setPc (s.pc + 1)) t := by
  rw [step_runs running, fetchWord_eq, afterFetch_eq]
  exact exec_effect ..

/-- A legal word never faults. -/
theorem faulted_of_step_legal {s t : State} (h : step s = .next t) (legal : ¬ illegalWord (s.memRead s.pc)) :
    t.faulted = false := by
  obtain ⟨running, effect⟩ := effect_of_step h
  exact (effect.faulted_eq (decodeWord_ne_illegal legal)).trans running

/-- Settles O16: the three clauses are that every step answers, that legal words do not fault, and that a word with a
basic opcode is legal. -/
theorem onlyIllegalWordsFault : Obligations.OnlyIllegalWordsFault := by
  intro s running
  obtain ⟨t, ht, -⟩ := exists_step running
  refine ⟨⟨t, ht⟩, fun u hu faulted => ?_, fun basicOpcode => ⟨t, ht, ?_⟩⟩
  · by_contra legal
    simp [faulted_of_step_legal hu legal] at faulted
  · exact faulted_of_step_legal ht fun illegal => basicOpcode illegal.1

/-! ## The driver's STEP -/

theorem transact_step_latched {s : State} (h : s.faulted = true) : transact .step s = (.faultAgain, s) := by
  rw [transact, step_latched h]

theorem transact_step_ok {s t : State} (h : step s = .next t) (ht : t.faulted = false) :
    transact .step s = (.ok, t) := by
  simp [transact, h, ht]

theorem transact_step_illegal {s t : State} (h : step s = .next t) (ht : t.faulted = true) :
    transact .step s = (.illegalOpcode s.fetchWord s.pc, t) := by
  simp [transact, h, ht]

/-- Settles O13: the step's fault, and what the driver's STEP makes of it. -/
theorem faultLatchStopsTheEngine : Obligations.FaultLatchStopsTheEngine := fun _ h =>
  ⟨step_latched h, transact_step_latched h⟩

/-- Settles O14: the step's next state, and what the driver's STEP makes of it. -/
theorem illegalWordTakesTheException : Obligations.IllegalWordTakesTheException := fun _ running h =>
  ⟨step_illegalWord running h, transact_step_illegal (step_illegalWord running h) rfl⟩

/-! ## SKIP -/

/-- SKIP is set by a conditional only, which does not fault. -/
theorem Effect.of_sets_skip {i : Instr} {s t : State} (e : Effect i s t) (before : s.skip = false)
    (after : t.skip = true) : (∃ op ∈ conditionalOps, ∃ a b, i = op a b) ∧ t.faulted = s.faulted := by
  cases e with
  | skips _ mem eq => exact ⟨⟨_, mem, _, _, eq⟩, rfl⟩
  | suppressed => cases after
  | goesOn | calls | faults => cases before.symm.trans after
  | writes => simp [before] at after

/-- SKIP stays set only through an illegal word. -/
theorem Effect.of_keeps_skip {i : Instr} {s t : State} (e : Effect i s t) (before : s.skip = true)
    (after : t.skip = true) : ∃ fa fb, i = .illegal fa fb := by
  cases e with
  | faults eq => exact ⟨_, _, eq⟩
  | suppressed => cases after
  | writes skip | goesOn skip | skips skip | calls skip => cases before.symm.trans skip

/-- Settles O44: the two lemmas above at the word the step decoded. -/
theorem skipIsSetOnlyByConditionals : Obligations.SkipIsSetOnlyByConditionals := by
  intro s t h
  obtain ⟨-, effect⟩ := effect_of_step h
  exact ⟨fun before after => (effect.of_sets_skip before after).1,
    fun before after => (decodeWord_eq_illegal_iff _).mp (effect.of_keeps_skip before after)⟩

/-- A suppressed step passes over a legal word. -/
theorem step_suppressed {s : State} (running : s.faulted = false) (skip : s.skip = true)
    (legal : ¬ illegalWord (s.memRead s.pc)) :
    step s = .next (passed (decodeWord (s.memRead s.pc)) (s.setPc (s.pc + 1))) := by
  have afterSkip : (s.setPc (s.pc + 1)).skip = true := skip
  rw [step_runs running, fetchWord_eq, afterFetch_eq, exec_suppressed afterSkip (decodeWord_ne_illegal legal)]

/-- Settles O43: the step that set SKIP left a running engine, so the next one passes over its word, and leaves a running
engine with SKIP clear. -/
theorem oneSuppressionPerSetFlag : Obligations.OneSuppressionPerSetFlag := by
  intro s t before h after legal
  obtain ⟨running, effect⟩ := effect_of_step h
  obtain ⟨-, keepsLatch⟩ := effect.of_sets_skip before after
  have stillRunning : t.faulted = false := keepsLatch.trans running
  exact ⟨_, step_suppressed stillRunning after legal, rfl, stillRunning, rfl, rfl, rfl,
    stepRunsTheDecodedInstruction _ _ stillRunning rfl⟩

/-! ## The registers and O -/

/-- A register changes only by a store to it. -/
theorem Effect.of_changes_reg {i : Instr} {s t : State} {r : Reg} (e : Effect i s t) (h : t.reg r ≠ s.reg r) :
    s.skip = false ∧ ∃ op ∈ writingOps, ∃ b, i = op (.reg r) b := by
  cases e with
  | suppressed | goesOn | skips | calls | faults => exact absurd rfl h
  | @writes _ a b skip mem eq value =>
    have here : locOf a s = .reg r := by
      by_contra other
      exact h (State.writeLoc_reg_other (afterBoth a b s) value other)
    obtain rfl := (locOf_eq_reg_iff a s r).mp here
    exact ⟨skip, _, mem, _, eq⟩

/-- Settles O46: the fetch leaves the registers, so the change is the effect's. -/
theorem registersChangeOnlyAsOperandA : Obligations.RegistersChangeOnlyAsOperandA := by
  intro s t r h changed
  obtain ⟨-, effect⟩ := effect_of_step h
  exact effect.of_changes_reg changed

/-- O changes only by an instruction that writes it. -/
theorem Effect.of_changes_o {i : Instr} {s t : State} (e : Effect i s t) (h : t.o ≠ s.o) :
    s.skip = false ∧ ∃ op ∈ writingOps, ∃ a b, i = op a b := by
  cases e with
  | suppressed | goesOn | skips | calls | faults => exact absurd rfl h
  | writes skip mem eq => exact ⟨skip, _, mem, _, _, eq⟩

/-- Settles O47: the fetch leaves O, so the change is the effect's. -/
theorem overflowChangesOnlyByWritingInstructions : Obligations.OverflowChangesOnlyByWritingInstructions := by
  intro s t h changed
  obtain ⟨-, effect⟩ := effect_of_step h
  exact effect.of_changes_o changed

/-! ## The write observer -/

/-- The report of a store, in the spec's own words (20_memory.md R40). -/
theorem State.memWrite_reports_eq (s : State) (x v : Word) :
    (s.memWrite x v).reports =
      if s.obsLo.toNat ≤ x.toNat ∧ x.toNat ≤ s.obsHi.toNat then s.reports ++ [⟨x, (s.memWrite x v).memRead x⟩]
      else s.reports := by
  rw [State.memRead_memWrite_same, State.memWrite_reports, State.observed]
  exact if_congr (by simp) rfl rfl

/-- Settles O48: in both clauses the last thing that touches memory and the reports is one store. -/
theorem observerHearsEachStoreInRange : Obligations.ObserverHearsEachStoreInRange := by
  intro s skip
  refine ⟨fun op mem a b x here => ?_, fun a => ?_⟩
  · obtain ⟨value, overflow, runs⟩ := writes_of_mem_writingOps mem
    rw [resolve_fst] at here
    refine ⟨_, runs a b s skip, ?_⟩
    rw [here]
    exact State.memWrite_reports_eq (afterBoth a b s) x _
  · rw [resolve_snd]
    exact ⟨_, exec_jsr_runs a skip, State.memWrite_reports_eq ((moved a s).setSp ((moved a s).sp - 1)) _ _⟩

end Sys2Proof.Machine
end

section
/-! Two instructions in a row: what the first leaves is what the second reads (20_memory.md section 6, 43_conditional.md
section 3, 44_nonbasic.md section 3). -/

namespace Sys2Proof.Machine

open Claims

/-! ## A stored word as the next instruction -/

/-- A running engine executes the word that stands at PC. -/
theorem step_of_memRead {t : State} {w : Word} (running : t.faulted = false) (h : t.memRead t.pc = w) :
    step t = exec (decodeWord w) { t with pc := t.pc + 1 } :=
  stepRunsTheDecodedInstruction t _ running (congrArg decodeWord h)

/-- Settles O51: in both clauses the word at the new PC is the one just stored, and neither instruction faults. -/
theorem storedWordIsTheNextFetched : Obligations.StoredWordIsTheNextFetched := by
  constructor
  · intro p mem a b s t running skip h here
    obtain ⟨overflow, runs⟩ := writes_of_mem_storedValues mem
    rw [resolve_fst] at here
    cases (runs a b s skip).symm.trans h
    have stored := State.readLoc_setO_writeLoc_same (afterBoth a b s) (loc := locOf a s)
      (p.2 (valA a b s) (valB a b s)) (overflow (valA a b s) (valB a b s)) (by rw [here]; rfl) (by rw [here]; nofun)
    refine step_of_memRead ((State.writeLoc_faulted ..).trans running) (Eq.trans ?_ stored)
    exact congrArg (State.readLoc _) here.symm
  · intro a s t running skip h top
    cases (exec_jsr_runs a skip).symm.trans h
    exact step_of_memRead running (top ▸ called_memRead_top a s)

/-! ## The stack -/

/-- `SET r, POP` puts the word at SP in the register. -/
theorem exec_set_reg_pop (r : Reg) {s : State} (skip : s.skip = false) :
    ∃ t, exec (.set (.reg r) .pop) s = .next t ∧ t.reg r = s.memRead s.sp ∧ t.sp = s.sp + 1 :=
  ⟨_, setStoresOperandB (.reg r) .pop s skip, State.reg_setReg_same .., rfl⟩

/-- `SET PC, POP` puts the word at SP in PC. -/
theorem exec_set_pc_pop {s : State} (skip : s.skip = false) :
    ∃ t, exec (.set .pcVal .pop) s = .next t ∧ t.pc = s.memRead s.sp ∧ t.sp = s.sp + 1 :=
  ⟨_, setStoresOperandB .pcVal .pop s skip, rfl, rfl⟩

theorem spAfter_of_ne {x : Operand} (pop : x ≠ .pop) (push : x ≠ .push) (sp : Word) : spAfter x sp = sp := by
  cases x with
  | pop => exact absurd rfl pop
  | push => exact absurd rfl push
  | reg | regInd | regIdx | peek | spVal | pcVal | oVal | memAbs | imm | lit => rfl

/-- `SET PUSH, b` leaves the value of `b` at the new SP. -/
theorem exec_set_push (b : Operand) {s : State} (skip : s.skip = false) :
    ∃ t, exec (.set .push b) s = .next t ∧ t.memRead (s.sp - 1) = valB .push b s ∧ t.sp = spAfter b (s.sp - 1) ∧
      t.skip = false :=
  ⟨_, setStoresOperandB .push b s skip, State.memRead_memWrite_same .., rfl, skip⟩

/-- Settles O52: the word pushed stands where the pop reads. -/
theorem pushThenPopRestoresStack : Obligations.PushThenPopRestoresStack := by
  intro r b s pc' skip pop push
  obtain ⟨t, ht, pushed, tsp, tskip⟩ := exec_set_push b skip
  obtain ⟨u, hu, popped, usp⟩ := exec_set_reg_pop r (s := { t with pc := pc' }) tskip
  have top : t.sp = s.sp - 1 := tsp.trans (spAfter_of_ne pop push _)
  refine ⟨t, u, ht, hu, ?_, ?_⟩
  · calc u.reg r = t.memRead t.sp := popped
      _ = valB .push b s := by rw [top, pushed]
  · calc u.sp = t.sp + 1 := usp
      _ = s.sp := by rw [top, sub_add_cancel]

/-- Settles O53: the return pops the address the call pushed. -/
theorem callThenReturn : Obligations.CallThenReturn := by
  intro a s pc' skip
  obtain ⟨u, hu, upc, usp⟩ := exec_set_pc_pop (s := { called a s with pc := pc' }) skip
  refine ⟨_, u, exec_jsr_runs a skip, hu, ?_, ?_⟩
  · exact upc.trans (called_memRead_top a s)
  · exact usp.trans (sub_add_cancel ..)

/-! ## A conditional before a jump -/

/-- A jump unsuppressed goes to the value of its operand. -/
theorem step_jump {t : State} {x : Operand} (running : t.faulted = false) (skip : t.skip = false)
    (h : decodeWord (t.memRead t.pc) = .set .pcVal x) :
    ∃ u, step t = .next u ∧ u.skip = false ∧ u.pc = valB .pcVal x { t with pc := t.pc + 1 } :=
  ⟨_, (stepRunsTheDecodedInstruction t _ running h).trans (setStoresOperandB .pcVal x _ skip), skip, rfl⟩

/-- A jump suppressed is passed over. -/
theorem step_jump_suppressed {t : State} {x : Operand} (running : t.faulted = false) (skip : t.skip = true)
    (h : decodeWord (t.memRead t.pc) = .set .pcVal x) :
    ∃ u, step t = .next u ∧ u.skip = false ∧ u.pc = pcAfter x (t.pc + 1) :=
  ⟨_, (stepRunsTheDecodedInstruction t _ running h).trans (exec_instr_suppressed .set .pcVal x skip), rfl, rfl⟩

/-- Settles O45: the conditional leaves PC at the jump, and SKIP says which of the two the jump does. -/
theorem conditionalBranchIdiom : Obligations.ConditionalBranchIdiom := by
  intro p mem a b x s running skip hcond hjump
  have first := stepRunsTheDecodedInstruction s _ running hcond
  obtain ⟨yes, no⟩ := skips_of_mem_conditions mem a b { s with pc := s.pc + 1 } skip
  by_cases holds : p.2 (valA a b { s with pc := s.pc + 1 }) (valB a b { s with pc := s.pc + 1 })
  · obtain ⟨u, hu, uskip, upc⟩ := step_jump (t := afterBoth a b { s with pc := s.pc + 1 }) running skip hjump
    exact ⟨_, u, first.trans (yes holds), hu, uskip, fun _ => upc, fun fails => absurd holds fails⟩
  · obtain ⟨u, hu, uskip, upc⟩ :=
      step_jump_suppressed (t := (afterBoth a b { s with pc := s.pc + 1 }).setSkip true) running rfl hjump
    exact ⟨_, u, first.trans (no holds), hu, uskip, fun h => absurd h holds, fun _ => upc⟩

/-! ## An encoded instruction -/

/-- A word that decodes to SET of a register runs in one step; the register takes operand B's value, and no other
register and no memory word changes. -/
theorem step_set_reg {s : State} {r : Reg} {b : Operand} (running : s.faulted = false) (skip : s.skip = false)
    (h : decodeWord (s.memRead s.pc) = .set (.reg r) b) :
    ∃ t, step s = .next t ∧ t.reg r = valB (.reg r) b { s with pc := s.pc + 1 } ∧ t.pc = pcAfter b (s.pc + 1) ∧
      t.sp = spAfter b s.sp ∧ (∀ q, q ≠ r → t.reg q = s.reg q) ∧ t.mem = s.mem :=
  ⟨_, (stepRunsTheDecodedInstruction s _ running h).trans (setStoresOperandB (.reg r) b _ skip),
    State.reg_setReg_same .., rfl, rfl, fun _ other => State.reg_setReg_other _ _ other, rfl⟩

theorem mnemonic_set : Mnemonic.ofName "SET" = some (.basic .set) := rfl

/-- A line of SET with two operands is the basic instruction's encoding. -/
theorem encodeLine_set (xa xb : AsmOperand) : encodeLine "SET" [xa, xb] = encodeBasic config .set xa xb := by
  rw [encodeLine, mnemonic_set]
  rfl

/-- An encoded instruction that stands at PC is what the step decodes. -/
theorem decodeWord_of_stands {s : State} {i : Instr} (hi : i.wf = true) {out : List Emitted}
    (h : stands s s.pc ((Emitted.plain (encodeWord i) :: out).map Emitted.word)) :
    decodeWord (s.memRead s.pc) = i ∧ stands s (s.pc + 1) (out.map Emitted.word) := by
  obtain ⟨first, rest⟩ := h
  rw [first]
  exact ⟨decodeWord_encodeWord hi, rest⟩

theorem setWidth_small_literal {n : Nat} (h : n ≤ 0x1F) : (BitVec.ofNat 5 n).setWidth 16 = BitVec.ofNat 16 n := by
  apply BitVec.eq_of_toNat_eq
  simp only [BitVec.toNat_setWidth, BitVec.toNat_ofNat]
  omega

/-- Settles O10: folded, the number is in the instruction word; unfolded, it is the word after it. -/
theorem encodedSetLoadsItsLiteral : Obligations.EncodedSetLoadsItsLiteral := by
  intro r n s hn running skip
  have hreg : encodeAsmOperand (.reg r) true = .ok (.reg r, []) := rfl
  rw [encodeLine_set]
  by_cases small : n ≤ 0x1F
  · refine ⟨_, encodeBasic_of_ok hreg (encodeAsmOperand_lit_folded small) .set, fun placed => ?_⟩
    obtain ⟨decoded, -⟩ := decodeWord_of_stands (BasicOp.instr_wf ..) placed
    obtain ⟨t, ht, value, hpc, hsp, regs, mem⟩ := step_set_reg running skip decoded
    exact ⟨t, ht, value.trans (setWidth_small_literal small), hpc, hsp, regs, mem⟩
  · have hlit : encodeAsmOperand (.lit (.num n)) true = .ok (.imm, [Emitted.plain (BitVec.ofNat 16 n)]) :=
      (encodeAsmOperand_lit_of_gt (by omega) true).trans (withTrailing_of_le hn .imm)
    refine ⟨_, encodeBasic_of_ok hreg hlit .set, fun placed => ?_⟩
    obtain ⟨decoded, second, -⟩ := decodeWord_of_stands (BasicOp.instr_wf ..) placed
    obtain ⟨t, ht, value, hpc, hsp, regs, mem⟩ := step_set_reg running skip decoded
    have twoWords : s.pc + 1 + 1 = s.pc + 2 := add_assoc ..
    exact ⟨t, ht, value.trans second, hpc.trans twoWords, hsp, regs, mem⟩

end Sys2Proof.Machine
end

section
/-! What a step does not depend on: the write observer (decision D21), and, suppressed, all data (41_step_engine.md
R134). -/

namespace Sys2Proof.Machine

open Claims

/-! ## The write observer -/

/-- The state with another observer: another range, and other reports made so far. -/
def State.withObserver (s : State) (lo hi : Word) (reports : List Report) : State :=
  { s with obsLo := lo, obsHi := hi, reports := reports }

/-- Two states alike in the engine differ in the observer only. -/
theorem eq_withObserver_of_sameEngine {s t : State} (h : sameEngine s t) :
    t = s.withObserver t.obsLo t.obsHi t.reports := by
  obtain ⟨regs, pc, sp, o, skip, faulted, mem⟩ := h
  rw [State.withObserver, regs, pc, sp, o, skip, faulted, mem]

section Observer

variable (s : State) (lo hi : Word) (reports : List Report)

@[simp] theorem State.readLoc_withObserver (loc : Loc) :
    (s.withObserver lo hi reports).readLoc loc = s.readLoc loc := by
  cases loc <;> rfl

@[simp] theorem locOf_withObserver (x : Operand) : locOf x (s.withObserver lo hi reports) = locOf x s := by
  cases x <;> rfl

theorem moved_withObserver (x : Operand) :
    moved x (s.withObserver lo hi reports) = (moved x s).withObserver lo hi reports := rfl

theorem afterBoth_withObserver (a b : Operand) :
    afterBoth a b (s.withObserver lo hi reports) = (afterBoth a b s).withObserver lo hi reports := rfl

@[simp] theorem valA_withObserver (a b : Operand) : valA a b (s.withObserver lo hi reports) = valA a b s := by
  rw [valA, afterBoth_withObserver, State.readLoc_withObserver, locOf_withObserver, valA]

@[simp] theorem valB_withObserver (a b : Operand) : valB a b (s.withObserver lo hi reports) = valB a b s := by
  rw [valB, afterBoth_withObserver, State.readLoc_withObserver, moved_withObserver, locOf_withObserver, valB]

theorem sameEngine_withObserver : sameEngine s (s.withObserver lo hi reports) := ⟨rfl, rfl, rfl, rfl, rfl, rfl, rfl⟩

/-- A store with another observer differs in the reports only. -/
theorem sameEngine_writeLoc_withObserver (loc : Loc) (v : Word) :
    sameEngine (s.writeLoc loc v) ((s.withObserver lo hi reports).writeLoc loc v) := by
  cases loc <;> exact ⟨rfl, rfl, rfl, rfl, rfl, rfl, rfl⟩

theorem sameEngine_called_withObserver (a : Operand) :
    sameEngine (called a s) (called a (s.withObserver lo hi reports)) := by
  refine ⟨rfl, ?_, rfl, rfl, rfl, rfl, rfl⟩
  rw [called_pc, called_pc, moved_withObserver, State.readLoc_withObserver, locOf_withObserver]

/-- Whatever the instruction, another observer changes nothing of the engine's next state. -/
theorem exec_withObserver (i : Instr) :
    ∃ t t', exec i s = .next t ∧ exec i (s.withObserver lo hi reports) = .next t' ∧ sameEngine t t' := by
  by_cases illegal : ∃ fa fb, i = .illegal fa fb
  · obtain ⟨fa, fb, rfl⟩ := illegal
    exact ⟨_, _, exec_illegal fa fb s, exec_illegal fa fb _, sameEngine_withObserver ..⟩
  have legal : ∀ fa fb, i ≠ .illegal fa fb := fun fa fb e => illegal ⟨fa, fb, e⟩
  cases skip : s.skip with
  | true => exact ⟨_, _, exec_suppressed skip legal, exec_suppressed skip legal, sameEngine_withObserver ..⟩
  | false =>
    have skip' : (s.withObserver lo hi reports).skip = false := skip
    obtain ⟨op, a, b, rfl⟩ | ⟨a, rfl⟩ | ⟨fa, fb, rfl⟩ := i.shape
    · obtain mem | mem := instr_mem_families op
      · obtain ⟨value, overflow, runs⟩ := writes_of_mem_writingOps mem
        refine ⟨_, _, runs a b s skip, runs a b _ skip', ?_⟩
        rw [valA_withObserver, valB_withObserver, locOf_withObserver, afterBoth_withObserver]
        obtain ⟨regs, pc, sp, -, skips, faulted, memory⟩ :=
          sameEngine_writeLoc_withObserver (afterBoth a b s) lo hi reports (locOf a s) (value (valA a b s) (valB a b s))
        exact ⟨regs, pc, sp, rfl, skips, faulted, memory⟩
      · obtain ⟨holds, runs⟩ := skips_of_mem_conditionalOps mem
        obtain ⟨yes, no⟩ := runs a b s skip
        obtain ⟨yes', no'⟩ := runs a b _ skip'
        rw [valA_withObserver, valB_withObserver] at yes' no'
        by_cases cond : holds (valA a b s) (valB a b s)
        · exact ⟨_, _, yes cond, yes' cond, sameEngine_withObserver ..⟩
        · exact ⟨_, _, no cond, no' cond, sameEngine_withObserver ((afterBoth a b s).setSkip true) lo hi reports⟩
    · exact ⟨_, _, exec_jsr_runs a skip, exec_jsr_runs a skip', sameEngine_called_withObserver ..⟩
    · exact absurd rfl (legal fa fb)

end Observer

/-- Settles O49: the two engines fetch the same word, and execute it alike. -/
theorem observerCannotChangeTheEngine : Obligations.ObserverCannotChangeTheEngine := by
  intro s s' t same h
  rw [eq_withObserver_of_sameEngine same]
  obtain ⟨running, runs⟩ := step_next h
  obtain ⟨u, t', hu, ht', engine⟩ :=
    exec_withObserver (s.setPc (s.pc + 1)) s'.obsLo s'.obsHi s'.reports (decodeWord (s.memRead s.pc))
  cases hu.symm.trans runs
  exact ⟨t', (step_runs (s := s.withObserver s'.obsLo s'.obsHi s'.reports) running).trans ht', engine⟩

/-! ## Data, while suppressed -/

/-- Settles O50: an illegal word leaves PC where the fetch put it; any other is passed over, by its own operands. -/
theorem suppressedStepReadsNoData : Obligations.SuppressedStepReadsNoData := by
  intro s s' t skip skip' running' pc sp word h
  obtain ⟨running, -⟩ := step_next h
  rw [pc] at word
  by_cases illegal : illegalWord (s.memRead s.pc)
  · have illegal' : illegalWord (s'.memRead s'.pc) := by rwa [← word, ← pc]
    cases (step_illegalWord running illegal).symm.trans h
    exact ⟨_, step_illegalWord running' illegal', congrArg (· + 1) pc.symm, sp.symm, skip'.trans skip.symm, rfl⟩
  · have legal' : ¬ illegalWord (s'.memRead s'.pc) := by rwa [← word, ← pc]
    cases (step_suppressed running skip illegal).symm.trans h
    refine ⟨_, step_suppressed running' skip' legal', ?_, ?_, rfl, running'.trans running.symm⟩
    · simp [passed, pc, word]
    · simp [passed, pc, sp, word]

end Sys2Proof.Machine
end

section
/-! The driver's transactions and the reset state (41_step_engine.md section 3, 60_exceptions.md R194,
70_reset_and_hazards.md). -/

namespace Sys2Proof.Machine

open Claims

/-! ## Reset -/

/-- Settles O1: every field is the default of its parameter, and no address is at once at or above 0xFFFF and at or
below 0x0000. -/
theorem resetLeavesZeros : Obligations.ResetLeavesZeros := by
  refine ⟨fun r => ?_, rfl, rfl, rfl, rfl, rfl, fun _ => rfl, fun a => ?_, rfl⟩
  · cases r <;> rfl
  · have empty : ¬ (State.reset.obsLo.toNat ≤ a.toNat ∧ a.toNat ≤ State.reset.obsHi.toNat) := by
      rintro ⟨above, below⟩
      exact absurd (Nat.le_trans above below) (by decide)
    simpa [State.observed] using empty

/-- Settles O2: the reset memory and the reports are empty lists. -/
theorem resetMeetsInvariant : Obligations.ResetMeetsInvariant := ⟨rfl, nofun⟩

/-- Settles O55: INSPECT and LOAD leave the latch, STEP of a faulted engine changes nothing, and RESET writes every
field of the engine. -/
theorem onlyResetClearsTheLatch : Obligations.OnlyResetClearsTheLatch := by
  have reset (s : State) : sameEngine s.resetByDriver State.reset := ⟨rfl, rfl, rfl, rfl, rfl, rfl, rfl⟩
  refine ⟨fun x s faulted notReset => ?_, fun s => ⟨_, rfl, reset s, rfl, rfl, rfl, rfl⟩⟩
  cases x with
  | reset => exact absurd rfl notReset
  | load words => rw [transact]; split_ifs <;> exact faulted
  | step => rw [transact_step_latched faulted]; exact faulted
  | inspect p => exact faulted

/-! ## LOAD -/

/-- After a load a word of the image stands at its address, and every other address holds what it held. -/
theorem Memory.read_load (m : Memory) (addr x : Nat) (ws : List Word) :
    (m.load addr ws).read x = if addr ≤ x then (ws[x - addr]?).getD (m.read x) else m.read x := by
  induction ws generalizing m addr with
  | nil => simp [Memory.load]
  | cons w ws ih =>
    rw [Memory.load, ih]
    obtain below | rfl | above := Nat.lt_trichotomy x addr
    · rw [if_neg (by omega), if_neg (by omega), Memory.read_write_other _ _ (by omega)]
    · rw [if_neg (by omega), if_pos (Nat.le_refl x), Memory.read_write_same, Nat.sub_self]
      rfl
    · have next : x - addr = x - (addr + 1) + 1 := by omega
      rw [if_pos (by omega), if_pos (by omega), Memory.read_write_other _ _ (by omega), next, List.getElem?_cons_succ]

/-- Settles O54: the load starts at address 0, so word `i` is the one at address `i`. -/
theorem loadPlacesTheImage : Obligations.LoadPlacesTheImage := by
  refine fun ws s => ⟨fun fits => ?_, fun long => if_pos long⟩
  refine ⟨_, if_neg (Nat.not_lt.mpr fits), fun x => ?_, rfl, rfl, rfl, rfl, rfl, rfl, rfl⟩
  exact (Memory.read_load ..).trans (if_pos (Nat.zero_le _))

/-! ## Runs -/

theorem endRun_ok_iff {s t : State} : endRun s = (.ok, t) ↔ s.faulted = false ∧ s = t := by
  rw [endRun]
  cases s.faulted <;> simp

theorem endRun_fst_ok_iff (s : State) : (endRun s).1 = .ok ↔ s.faulted = false := by
  rw [endRun]
  cases s.faulted <;> simp

theorem safeFor_zero (s : State) : safeFor 0 s = true ↔ s.faulted = false := by simp [safeFor]

theorem safeFor_of_faulted {s : State} (h : s.faulted = true) (k : Nat) : safeFor k s = false := by
  cases k with
  | zero => simp [safeFor, h]
  | succ k => rw [safeFor, step_latched h]

theorem safeFor_succ {s t : State} (h : step s = .next t) (k : Nat) : safeFor (k + 1) s = safeFor k t := by
  rw [safeFor, h]

/-- STEP answers `ok` exactly when it gives a next state that has not faulted. -/
theorem transact_step_ok_iff {s t : State} :
    transact .step s = (.ok, t) ↔ step s = .next t ∧ t.faulted = false := by
  refine ⟨fun h => ?_, fun ⟨h, ht⟩ => transact_step_ok h ht⟩
  cases running : s.faulted with
  | true => cases (transact_step_latched running).symm.trans h
  | false =>
    obtain ⟨u, hu, -⟩ := exists_step running
    cases hf : u.faulted with
    | true => cases (transact_step_illegal hu hf).symm.trans h
    | false => cases (transact_step_ok hu hf).symm.trans h; exact ⟨hu, hf⟩

section Run

variable {stop : State → Bool} {n : Nat} {s t : State}

theorem runDriver_stopped (h : stop s = true) : runDriver stop (n + 1) s = endRun s := if_pos h

/-- A run goes on after a STEP that answers `ok`. -/
theorem runDriver_ok (h : stop s = false) (ok : transact .step s = (.ok, t)) :
    runDriver stop (n + 1) s = runDriver stop n t := by
  rw [runDriver, if_neg (by simp [h]), ok]

/-- A run ends with the answer of a STEP that is not `ok`. -/
theorem runDriver_not_ok (h : stop s = false) (notOk : (transact .step s).1 ≠ .ok) :
    runDriver stop (n + 1) s = transact .step s := by
  rw [runDriver, if_neg (by simp [h])]
  split
  · rename_i u ok
    exact absurd (congrArg Prod.fst ok) notOk
  · rfl

/-- A run with budget left that answers `ok` stopped in a running engine, or took a STEP that answered `ok` and went on. -/
theorem runDriver_succ_ok (h : runDriver stop (n + 1) s = (.ok, t)) :
    endRun s = (.ok, t) ∨ ∃ u, transact .step s = (.ok, u) ∧ runDriver stop n u = (.ok, t) := by
  cases hs : stop s with
  | true => exact .inl (runDriver_stopped hs ▸ h)
  | false =>
    by_cases ok : (transact .step s).1 = .ok
    · have step : transact .step s = (.ok, (transact .step s).2) := Prod.ext ok rfl
      exact .inr ⟨_, step, runDriver_ok hs step ▸ h⟩
    · rw [runDriver_not_ok hs ok] at h
      exact absurd (congrArg Prod.fst h) ok

end Run

/-- A run that nothing stops answers `ok` exactly when its steps are safe. -/
theorem runDriver_never_ok_iff (k : Nat) (s : State) :
    (runDriver (fun _ => false) k s).1 = .ok ↔ safeFor k s = true := by
  induction k generalizing s with
  | zero => exact (endRun_fst_ok_iff s).trans (safeFor_zero s).symm
  | succ k ih =>
    cases running : s.faulted with
    | true =>
      have latched := transact_step_latched running
      rw [runDriver_not_ok rfl (by rw [latched]; nofun), latched, safeFor_of_faulted running]
      simp
    | false =>
      obtain ⟨t, ht, -⟩ := exists_step running
      rw [safeFor_succ ht]
      cases hf : t.faulted with
      | true =>
        have illegal := transact_step_illegal ht hf
        rw [runDriver_not_ok rfl (by rw [illegal]; nofun), illegal, safeFor_of_faulted hf]
        simp
      | false => rw [runDriver_ok rfl (transact_step_ok ht hf), ih]

/-- A run that answers `ok` started and ended in a running engine. -/
theorem running_of_runDriver_ok {stop : State → Bool} {k : Nat} {s t : State} (h : runDriver stop k s = (.ok, t)) :
    s.faulted = false ∧ t.faulted = false := by
  have ended {s : State} (h : endRun s = (.ok, t)) : s.faulted = false ∧ t.faulted = false := by
    obtain ⟨running, rfl⟩ := endRun_ok_iff.mp h
    exact ⟨running, running⟩
  induction k generalizing s with
  | zero => exact ended h
  | succ k ih =>
    obtain here | ⟨u, ok, rest⟩ := runDriver_succ_ok h
    · exact ended here
    · obtain ⟨hstep, -⟩ := transact_step_ok_iff.mp ok
      obtain ⟨running, -⟩ := step_next hstep
      exact ⟨running, (ih rest).2⟩

/-- Settles O56: both inductions over the budget. -/
theorem successfulRunsNeverEndFaulted : Obligations.SuccessfulRunsNeverEndFaulted :=
  ⟨runDriver_never_ok_iff, fun _ _ _ _ => running_of_runDriver_ok⟩

end Sys2Proof.Machine
end
